-- ==== Sys2Proof/Word.lean ====
section
/-! DEFINITION. The words of the block: a byte of the stream, and the 32-bit registers (spec/00_scope.md R5, R6). -/

namespace Sys2Proof

/-- One byte of the STREAM space and one cell of ROWBUF or GRID (R50, R33, R55; CELLW = 8, R5). -/
abbrev Byte := BitVec 8

/-- A 32-bit register (REGW, R5). Comparisons of these are unsigned (R10 (d)). -/
abbrev Reg32 := BitVec 32

end Sys2Proof
end

