-- ==== Sys2Proof/Syntax.lean ====
section
/-! DEFINITION. The seventeen operations (spec/30_encoding.md R70, R81), the modes (R24) and the decoding contexts (R72). -/

namespace Sys2Proof

/-- The block's operations, one constructor per row of spec/opcode_table.json, in the table's order. The operands are what the encoding
carries: a packed or filler byte whole, a token's count and pixel data (R71, R75, R78). The literal bytes of an absolute run are not
operands: the operation fetches them (R131, R141). -/
inductive Instr where
  /-- START (R90): CTRL value 1. -/
  | start
  /-- CLEAR (R96): CTRL value 2. -/
  | clear
  /-- FINISH (R95): no encoding. -/
  | finish
  /-- ROWEND (R94): no encoding. -/
  | rowend
  /-- UNPACK1 (R100): one packed byte, eight 1-bit pixels. -/
  | unpack1 (b : Byte)
  /-- UNPACK2 (R101): one packed byte, four 2-bit pixels. -/
  | unpack2 (b : Byte)
  /-- UNPACK4 (R102): one packed byte, two 4-bit pixels. -/
  | unpack4 (b : Byte)
  /-- UNPACK8 (R103): one packed byte, one pixel. -/
  | unpack8 (b : Byte)
  /-- PADSET (R110): no encoding. -/
  | padset
  /-- PADSKIP (R111): one filler byte, ignored. -/
  | padskip (b : Byte)
  /-- EOL (R121): token (0, 0). -/
  | eol
  /-- EOB (R122): token (0, 1). -/
  | eob
  /-- DELTA (R123): token (0, 2). -/
  | delta
  /-- ABS4 (R131): token (0, n), n = 3 to 255 pixels, two to a literal byte. -/
  | abs4 (n : Byte)
  /-- ABS8 (R141): token (0, n), n = 3 to 255 pixels, one to a literal byte. -/
  | abs8 (n : Byte)
  /-- ENC4 (R130): token (n, p * 16 + q), n = 1 to 255 pixels alternating p, q. -/
  | enc4 (n : Byte) (p q : BitVec 4)
  /-- ENC8 (R140): token (n, v), n = 1 to 255 pixels v. -/
  | enc8 (n v : Byte)
deriving DecidableEq, Repr

/-- The six engines MODE selects (R24). -/
inductive Mode where
  | depth1 | depth2 | depth4 | depth8 | depth4Rle | depth8Rle
deriving DecidableEq, Repr

/-- The two RLE modes (R24), which classify a token's runs differently (R73). -/
inductive Rle where
  | rle4 | rle8
deriving DecidableEq, Repr

/-- What the state tells the decoder before any byte is looked at (R72): the operation itself, or the kind of bytes that stand at CUR.
For format C it is the value written to CTRL (R77). These are the "when" columns of R81. -/
inductive Context where
  | command (v : BitVec 2)
  | finish
  | rowend
  | unpack1
  | unpack2
  | unpack4
  | unpack8
  | padset
  | padskip
  | token (r : Rle)
deriving DecidableEq, Repr

/-- The five formats (R70). -/
inductive Format where
  | t | p | f | s | c
deriving DecidableEq, Repr

/-- The format of each operation (R70, R81). -/
def Instr.format : Instr → Format
  | .start => .c
  | .clear => .c
  | .finish => .s
  | .rowend => .s
  | .unpack1 _ => .p
  | .unpack2 _ => .p
  | .unpack4 _ => .p
  | .unpack8 _ => .p
  | .padset => .s
  | .padskip _ => .f
  | .eol => .t
  | .eob => .t
  | .delta => .t
  | .abs4 _ => .t
  | .abs8 _ => .t
  | .enc4 _ _ _ => .t
  | .enc8 _ _ => .t

end Sys2Proof
end

