-- ==== Sys2Proof/WellFormed.lean ====
section
/-! DEFINITION. Which instructions the encoding admits (spec/30_encoding.md R71, R73, R78). -/

namespace Sys2Proof

/-- The count of an encoded run is 1 to 255 and the count of an absolute run 3 to 255 (R78); every other operand is free. A count outside
its range is another token: (0, 0), (0, 1), (0, 2) are the escapes (R73). -/
def Instr.wellFormed : Instr → Bool
  | .abs4 n => decide (3 ≤ n.toNat)
  | .abs8 n => decide (3 ≤ n.toNat)
  | .enc4 n _ _ => decide (1 ≤ n.toNat)
  | .enc8 n _ => decide (1 ≤ n.toNat)
  | .start => true
  | .clear => true
  | .finish => true
  | .rowend => true
  | .unpack1 _ => true
  | .unpack2 _ => true
  | .unpack4 _ => true
  | .unpack8 _ => true
  | .padset => true
  | .padskip _ => true
  | .eol => true
  | .eob => true
  | .delta => true

end Sys2Proof
end

