-- ==== Sys2Proof/Decode.lean ====
section
/-! DEFINITION. The decoder (spec/30_encoding.md R72 to R81) and, after it, the encoder (R71, R77, R82). Decoding takes a context, because the
bytes at CUR do not name the operation alone (R79), and a list of bytes, and gives the operation and the bytes after it. -/

namespace Sys2Proof

/-- Why a decode gives no operation. -/
inductive DecodeRefusal where
  /-- The CTRL value is 0 or 3 (R77). -/
  | notACommand
  /-- Byte number k (0 or 1) of the encoding is beyond the end of the stream (R73). -/
  | missingByte (k : Nat)
deriving DecidableEq, Repr

/-- The absolute run of an RLE mode (R73, R74). -/
def absoluteRun (r : Rle) (second : Byte) : Instr :=
  match r with
  | .rle4 => .abs4 second
  | .rle8 => .abs8 second

/-- The encoded run of an RLE mode: in RLE4 `second` is two indices, second[7:4] and second[3:0], in RLE8 one (R71). -/
def encodedRun (r : Rle) (first second : Byte) : Instr :=
  match r with
  | .rle4 => .enc4 first (second.extractLsb' 4 4) (second.extractLsb' 0 4)
  | .rle8 => .enc8 first second

/-- Token classification (R73): every one of the 65536 tokens falls in exactly one class. -/
def classify (r : Rle) (first second : Byte) : Instr :=
  if first = 0 then
    if second = 0 then .eol
    else if second = 1 then .eob
    else if second = 2 then .delta
    else absoluteRun r second
  else encodedRun r first second

/-- A one-byte encoding: formats P and F (R75, R76). -/
def decodeByte (mk : Byte → Instr) : List Byte → Except DecodeRefusal (Instr × List Byte)
  | b :: rest => .ok (mk b, rest)
  | [] => .error (.missingByte 0)

/-- A two-byte encoding: format T, `first` at the lower offset (R59, R71). -/
def decodeToken (r : Rle) : List Byte → Except DecodeRefusal (Instr × List Byte)
  | first :: second :: rest => .ok (classify r first second, rest)
  | [_] => .error (.missingByte 1)
  | [] => .error (.missingByte 0)

/-- The decoder. Total: every context and every list of bytes gives an operation or a named refusal. -/
def decode (c : Context) (bytes : List Byte) : Except DecodeRefusal (Instr × List Byte) :=
  match c with
  | .command v => if v = 1 then .ok (.start, bytes) else if v = 2 then .ok (.clear, bytes) else .error .notACommand
  | .finish => .ok (.finish, bytes)
  | .rowend => .ok (.rowend, bytes)
  | .unpack1 => decodeByte .unpack1 bytes
  | .unpack2 => decodeByte .unpack2 bytes
  | .unpack4 => decodeByte .unpack4 bytes
  | .unpack8 => decodeByte .unpack8 bytes
  | .padset => .ok (.padset, bytes)
  | .padskip => decodeByte .padskip bytes
  | .token r => decodeToken r bytes

/-! ## The encoder -/

/-- The stream bytes of an operation (R71, R75, R76, R82), without the body an absolute run fetches itself. Formats S and C have none. -/
def encode : Instr → List Byte
  | .start => []
  | .clear => []
  | .finish => []
  | .rowend => []
  | .unpack1 b => [b]
  | .unpack2 b => [b]
  | .unpack4 b => [b]
  | .unpack8 b => [b]
  | .padset => []
  | .padskip b => [b]
  | .eol => [0, 0]
  | .eob => [0, 1]
  | .delta => [0, 2]
  | .abs4 n => [0, n]
  | .abs8 n => [0, n]
  | .enc4 n p q => [n, p ++ q]
  | .enc8 n v => [n, v]

/-- The context an operation is decoded in when the token kinds of mode `r` are in force: the other half of its encoding, the "when" and, for
format C, the CTRL value (R77, R81). The escapes are the same in both RLE modes (R142). -/
def contextOf (r : Rle) : Instr → Context
  | .start => .command 1
  | .clear => .command 2
  | .finish => .finish
  | .rowend => .rowend
  | .unpack1 _ => .unpack1
  | .unpack2 _ => .unpack2
  | .unpack4 _ => .unpack4
  | .unpack8 _ => .unpack8
  | .padset => .padset
  | .padskip _ => .padskip
  | .eol => .token r
  | .eob => .token r
  | .delta => .token r
  | .abs4 _ => .token .rle4
  | .abs8 _ => .token .rle8
  | .enc4 _ _ _ => .token .rle4
  | .enc8 _ _ => .token .rle8

/-- The number of literal bytes an absolute run fetches after its token (R74); 0 for every other operation. -/
def literalBytes : Instr → Nat
  | .abs4 n => (n.toNat + 1) / 2
  | .abs8 n => n.toNat
  | .start => 0
  | .clear => 0
  | .finish => 0
  | .rowend => 0
  | .unpack1 _ => 0
  | .unpack2 _ => 0
  | .unpack4 _ => 0
  | .unpack8 _ => 0
  | .padset => 0
  | .padskip _ => 0
  | .eol => 0
  | .eob => 0
  | .delta => 0
  | .enc4 _ _ _ => 0
  | .enc8 _ _ => 0

/-- The number of stream bytes a whole operation consumes (R79): its encoding, its literal bytes, and one pad byte when the number of literal
bytes is odd (R74). -/
def instrLength (i : Instr) : Nat :=
  (encode i).length + literalBytes i + literalBytes i % 2

/-! ## The stream notation of R82 for whole runs -/

/-- The pad byte of an absolute run with `nb` literal bytes (R74), written 00 (R82). -/
def padBytes (nb : Nat) : List Byte :=
  if nb % 2 = 1 then [0] else []

/-- `ABS8 v0, ..., v(n-1)` of R82: the token, the literal bytes, the pad byte. -/
def streamAbs8 (vs : List Byte) : List Byte :=
  [0, BitVec.ofNat 8 vs.length] ++ vs ++ padBytes vs.length

/-- Two 4-bit pixels to a byte, the first in the high nibble; a missing last one is 0 (R82). -/
def packNibbles : List (BitVec 4) → List Byte
  | p :: q :: rest => (p ++ q) :: packNibbles rest
  | [p] => [p ++ (0 : BitVec 4)]
  | [] => []

/-- `ABS4 p0, ..., p(n-1)` of R82. -/
def streamAbs4 (ps : List (BitVec 4)) : List Byte :=
  [0, BitVec.ofNat 8 ps.length] ++ packNibbles ps ++ padBytes (packNibbles ps).length

/-! ## The table's words -/

/-- The bytes of a token word T as the stream holds them: T[15:8] = first at the lower offset (R71). -/
def tokenBytes (w : Nat) : List Byte :=
  [BitVec.ofNat 8 (w / 256), BitVec.ofNat 8 w]

/-- The context in which a table word of `nbits` bits is read when only the word is given (log 14). The table tells several rows of one width
apart by the state alone (R81), so one state is taken for each width: 16 bits, a token in mode Depth4Rle; 1 to 8 bits, the CTRL value when it is a
command, else a packed byte in mode Depth1; 0 bits, ROW = HEIGHT, the first test of R72. -/
def tableContext (nbits w : Nat) : Context :=
  if nbits = 0 then .finish
  else if nbits ≤ 8 then
    if w = 1 ∨ w = 2 then .command (BitVec.ofNat 2 w) else .unpack1
  else .token .rle4

/-- The stream bytes a table word stands for in that context. -/
def tableBytes (nbits w : Nat) : List Byte :=
  match tableContext nbits w with
  | .unpack1 => [BitVec.ofNat 8 w]
  | .token _ => tokenBytes w
  | _ => []

/-- The instruction the decoder reads from a table word. -/
def decodeTableWord (nbits w : Nat) : Option Instr :=
  match decode (tableContext nbits w) (tableBytes nbits w) with
  | .ok (i, _) => some i
  | .error _ => none

end Sys2Proof
end

