-- ==== Sys2Proof/Config.lean ====
section
/-! DEFINITION. What an implementation fixes (spec/00_scope.md R5) and the free values: constants without a body for what the spec leaves
open, so that a statement holds whatever they are (log 2). -/

namespace Sys2Proof

/-- FILL_INDEX (R5, D4): the index of cells no run covers. -/
def Config.fillIndex : Byte := 0

/-- The default of MAX_WIDTH (R5, D26): no limit beyond the register. -/
def Config.defaultMaxWidth : Nat := 2147483647

/-- The default of MAX_HEIGHT (R5, D26). -/
def Config.defaultMaxHeight : Nat := 2147483647

/-- CUR where the spec gives it no value (R96) or any value (R160). -/
opaque Config.freeCur : Nat → Nat

/-- ROW, in the same places. -/
opaque Config.freeRow : Nat → Reg32

/-- LEN, in the same places. -/
opaque Config.freeLen : Nat → Reg32

/-- SUB, in the same places: true for PAD. -/
opaque Config.freeSub : Nat → Bool

/-- PADCNT, in the same places. -/
opaque Config.freePadcnt : Nat → BitVec 2

/-- ROWBUF in phase FAULT (R160, U11): its written cells. -/
opaque Config.freeRowbuf : Nat → List Host.Cell

/-- GRID in phase FAULT (R160, U11): its written cells. -/
opaque Config.freeGrid : Nat → List Host.Cell

/-- The value CommitRow would take from a ROWBUF cell that holds none. R33 and R93 say that no operation reads one; the first argument is the
counter of free values, the second the column (log 6). -/
opaque Config.freeCell : Nat → Nat → Byte

end Sys2Proof
end

