-- ==== Sys2Proof/Machine/State.lean ====
section
/-! DEFINITION. The state of the block and of its host (spec/10_state.md, spec/20_memory.md R50 to R56, spec/70_reset_and_hazards.md R201), the reasons
a step can stop, and the state after reset (R40, R180). -/

namespace Sys2Proof.Machine

/-- PHASE (R21). -/
inductive Phase where
  | idle | run | done | fault
deriving DecidableEq, Repr

/-- SUB (R32). -/
inductive Sub where
  | pixels | pad
deriving DecidableEq, Repr

/-- The error kinds (R150). The block never writes the four host-side ones (R156). -/
inductive ErrKind where
  | none
  | truncatedHeader
  | truncatedPalette
  | truncatedRleStream
  | unsupportedBitDepth
  | unsupportedCompression
  | invalidFormatCombination
  | unsupportedRleEscape
  | corruptRowLength
  | unsupportedFormat
  | truncatedPixelData
deriving DecidableEq, Repr

/-- Cells that hold a byte, by address; an address not listed holds none ("unwritten", R33, R40). The canonical form is `Memory.wf`. -/
abbrev Memory := List Host.Cell

/-- What the host can read (R20, R201): the readable registers, and one cell of GRID by row and column. -/
inductive HostReg where
  | phase | mode | width | height | dataOffset | errKind | errOffset | cur
  | gridCell (r c : Nat)
deriving DecidableEq, Repr

/-- One move of the host agent (R201), one after which it lets the decoder run, or the reset input (R180). -/
inductive HostMove where
  /-- Write MODE (R22). -/
  | writeMode (v : BitVec 3)
  /-- Write WIDTH (R22). -/
  | writeWidth (v : Reg32)
  /-- Write HEIGHT (R22). -/
  | writeHeight (v : Reg32)
  /-- Write DATA_OFFSET (R22). -/
  | writeDataOffset (v : Reg32)
  /-- Attach or change the stream (R52, R201). -/
  | attach (bytes : List Byte)
  /-- Write the CTRL port (R23). -/
  | writeCtrl (v : BitVec 2)
  /-- Read a register or a grid cell (R201); `hostRead` gives the value, which goes to `answer`. -/
  | read (r : HostReg)
  /-- Leave the decoder one operation before the next move. -/
  | pass
  /-- Read PHASE until it is not RUN (R185 step 6). -/
  | await
  /-- The reset input (R180). -/
  | reset
deriving DecidableEq, Repr

/-- The whole state (R20), with the parameters of the step that a state must carry (R37), the host agent and the counter of free values. -/
structure State where
  /-- PHASE (R21). -/
  phase : Phase
  /-- CTRL (R23): the value standing at the command port, if the host has written one the block has not taken. -/
  ctrl : Option (BitVec 2)
  /-- MODE (R24), as written. -/
  mode : BitVec 3
  /-- WIDTH (R25). -/
  width : Reg32
  /-- HEIGHT (R26). -/
  height : Reg32
  /-- DATA_OFFSET (R27). -/
  dataOffset : Reg32
  /-- MODE holds a value (R40). -/
  modeWritten : Bool
  /-- WIDTH holds a value (R40). -/
  widthWritten : Bool
  /-- HEIGHT holds a value (R40). -/
  heightWritten : Bool
  /-- DATA_OFFSET holds a value (R40). -/
  dataOffsetWritten : Bool
  /-- ERR_KIND (R28). -/
  errKind : ErrKind
  /-- ERR_OFFSET (R28), a natural number (D19). -/
  errOffset : Nat
  /-- CUR (R29), a natural number (D19). -/
  cur : Nat
  /-- ROW (R30). -/
  row : Reg32
  /-- LEN (R31). -/
  len : Reg32
  /-- SUB (R32). -/
  sub : Sub
  /-- PADCNT (R32). -/
  padcnt : BitVec 2
  /-- ROWBUF (R33), by column. -/
  rowbuf : Memory
  /-- GRID (R55), by cell address. -/
  grid : Memory
  /-- STREAM (R50): the byte at offset a is element a, and N is the length. -/
  stream : List Byte
  /-- MAX_WIDTH (R5), a parameter of the implementation. -/
  maxWidth : Nat
  /-- MAX_HEIGHT (R5), a parameter of the implementation. -/
  maxHeight : Nat
  /-- The host's moves still to come, in order: the model's own field (log 8). -/
  inbox : List HostMove
  /-- What the host's last read gave it (R203), and none where that read is no move or none was made: the model's own field (log 16). -/
  answer : Option Nat
  /-- The counter that supplies free values: the model's own field (log 2). -/
  fresh : Nat
deriving DecidableEq, Repr

/-- The ways the model stops where no rule of the spec gives a next state. The block's own faults (R160) are next states in phase FAULT. -/
inductive Fault where
  /-- MODE is 6 or 7 in phase RUN, so no line of R72 applies and PADSET has no bits per pixel. Raised by the selection and by PADSET. Safe: START
  faults on these modes (R90), so no run reaches it. -/
  | reservedModeInRun
  /-- CommitRow with ROW at or above HEIGHT: grid row HEIGHT - 1 - ROW does not exist (R93). Raised by ROWEND, EOL and EOB. Safe: no run reaches
  it (R39 (a)). -/
  | rowOutsideGrid
deriving DecidableEq, Repr

/-- The moves the spec says do not exist, and instructions without a meaning. -/
inductive Refusal where
  /-- An instruction that has no meaning yet. Raised by exec's refused arms. Safe. -/
  | notModelled (mnemonic : String)
  /-- START in IDLE with a configuration register that holds no value: "a model refuses it" (R41). Raised by START. Safe. -/
  | startConfigUnwritten
  /-- The host changes the stream in phase RUN: outside the contract (R52, U15). Raised by the host's attach. Safe. -/
  | streamAlteredInRun
deriving DecidableEq, Repr

/-- The machine right after reset (R40, R180). MODE, WIDTH, HEIGHT, DATA_OFFSET, CUR, ROW, LEN, SUB and PADCNT have no value in the spec; the zeros
here are the model's (log 1), and the written bits say that the four configuration registers hold none. -/
def State.reset : State where
  phase := .idle
  ctrl := none
  mode := 0
  width := 0
  height := 0
  dataOffset := 0
  modeWritten := false
  widthWritten := false
  heightWritten := false
  dataOffsetWritten := false
  errKind := .none
  errOffset := 0
  cur := 0
  row := 0
  len := 0
  sub := .pixels
  padcnt := 0
  rowbuf := []
  grid := []
  stream := []
  maxWidth := Config.defaultMaxWidth
  maxHeight := Config.defaultMaxHeight
  inbox := []
  answer := none
  fresh := 0

end Sys2Proof.Machine
end

