-- ==== Sys2Proof/Machine/Flags.lean ====
section
/-! DEFINITION. The block has no status flags (spec/10_state.md R35). What an operation of the block tests instead are these comparisons of its
registers (spec/00_scope.md R10 (d), spec/30_encoding.md R72), and the two level outputs of spec/60_exceptions.md R165. -/

namespace Sys2Proof.Machine

/-- ROW = HEIGHT: every row has been produced (R72, R95). -/
def imageComplete (s : State) : Bool :=
  s.row == s.height

/-- LEN < WIDTH: the row has room for a pixel (R34, R72). -/
def rowOpen (s : State) : Bool :=
  decide (s.len < s.width)

/-- LEN > WIDTH: a run carried the row past its end (R154). -/
def rowOverrun (s : State) : Bool :=
  decide (s.width < s.len)

/-- ROW < HEIGHT: CommitRow has a grid row to write (R93). -/
def rowInGrid (s : State) : Bool :=
  decide (s.row < s.height)

/-- All four configuration registers hold a value (R40, R90). -/
def configWritten (s : State) : Bool :=
  s.modeWritten && s.widthWritten && s.heightWritten && s.dataOffsetWritten

/-- The optional level output for PHASE = DONE (R165). -/
def doneOutput (s : State) : Bool :=
  s.phase == .done

/-- The optional level output for PHASE = FAULT (R165). -/
def faultOutput (s : State) : Bool :=
  s.phase == .fault

end Sys2Proof.Machine
end

