-- ==== Sys2Proof/Machine/Ops.lean ====
section
/-! DEFINITION. The named operations over memory and registers: cells, Fetch (spec/20_memory.md R53), Emit (spec/10_state.md R34), CommitRow
(spec/40_sequencer.md R93), the fill of a row (R121, R122), and `raise` (spec/60_exceptions.md R160), the block's one trap entry. -/

namespace Sys2Proof.Machine

/-- How a step ends. -/
abbrev Result := Host.Outcome State Fault Refusal

/-! ## Cells -/

/-- The canonical form of a memory: addresses strictly rising, so that equal memories are equal lists. An address not listed holds no value, so no
entry can equal what an unlisted address reads as. -/
abbrev Memory.wf (m : Memory) : Prop :=
  m.Pairwise (fun x y => x.1 < y.1)

/-- The cell at address `a`: `none` when it is unwritten. -/
def Memory.read : Memory → Nat → Option Byte
  | [], _ => none
  | (b, w) :: rest, a => if b = a then some w else Memory.read rest a

/-- Writes the cell at address `a` and keeps the canonical form. -/
def Memory.write : Memory → Nat → Byte → Memory
  | [], a, v => [(a, v)]
  | (b, w) :: rest, a, v =>
    if a < b then (a, v) :: (b, w) :: rest
    else if a = b then (a, v) :: rest
    else (b, w) :: Memory.write rest a v

/-- A memory with the cells of a list that need not be in order. -/
def Memory.ofCells : List Host.Cell → Memory
  | [] => []
  | (a, v) :: rest => Memory.write (Memory.ofCells rest) a v

/-- Writes `f c`, `f (c + 1)`, ... to `n` cells from `base + c` up: the loops `for c in ...` of R93, R121 and R122. -/
def Memory.writeFrom (f : Nat → Byte) (base : Nat) : Nat → Nat → Memory → Memory
  | 0, _, m => m
  | n + 1, c, m => Memory.writeFrom f base n (c + 1) (m.write (base + c) (f c))

/-! ## The stream -/

/-- N, the length of the stream (R50). -/
def streamSize (s : State) : Nat :=
  s.stream.length

/-- MemRead(a, 1) (R50): defined for a < N. -/
def memRead (s : State) (a : Nat) : Option Byte :=
  s.stream[a]?

/-! ## Free values and faults -/

/-- CUR, ROW, LEN, SUB and PADCNT to free values (R96 "no value", R160 "any value"; log 3, log 4). -/
def forgetWorking (s : State) : State :=
  { s with
    cur := Config.freeCur s.fresh
    row := Config.freeRow s.fresh
    len := Config.freeLen s.fresh
    sub := if Config.freeSub s.fresh then .pad else .pixels
    padcnt := Config.freePadcnt s.fresh
    fresh := s.fresh + 1 }

/-- `raise K(off)` (R160): the trap entry. The error kind and the offset are recorded and PHASE becomes FAULT; the working registers, ROWBUF and
GRID hold any value from here on (R160, U11), so each is a free value. -/
def raise (k : ErrKind) (off : Nat) (s : State) : State :=
  { forgetWorking s with
    phase := .fault
    errKind := k
    errOffset := off
    rowbuf := Memory.ofCells (Config.freeRowbuf s.fresh)
    grid := Memory.ofCells (Config.freeGrid s.fresh) }

/-- What a part of an operation yields: a value and the state so far, or the state after a `raise`, which ends the operation (R8). -/
inductive Flow (α : Type) where
  | go (a : α) (s : State)
  | raised (s : State)
deriving Repr

/-- The rest of an operation after a part that may have raised. A raised state is the operation's end, and it is a next state (R160). -/
def Flow.andThen {α : Type} (x : Flow α) (k : α → State → Result) : Result :=
  match x with
  | .go a s => k a s
  | .raised s => .next s

/-- `Fetch(K)` (R53): the byte at CUR, and CUR + 1; at the end of the stream `raise K(CUR)`. -/
def fetch (k : ErrKind) (s : State) : Flow Byte :=
  match memRead s s.cur with
  | some b => .go b { s with cur := s.cur + 1 }
  | none => .raised (raise k s.cur s)

/-- The fetch of a token's two bytes (R73). It gives T0, the offset of the first. -/
def fetchToken (s : State) : Flow Nat :=
  match fetch .truncatedRleStream s with
  | .raised s1 => .raised s1
  | .go _ s1 =>
    match fetch .truncatedRleStream s1 with
    | .raised s2 => .raised s2
    | .go _ s2 => .go s.cur s2

/-! ## Pixels -/

/-- `Emit(v)` (R34): the pixel is stored only while LEN < WIDTH, and always counted. -/
def emit (v : Byte) (s : State) : State :=
  { s with
    rowbuf := if s.len < s.width then s.rowbuf.write s.len.toNat v else s.rowbuf
    len := s.len + 1 }

/-- Pixels number i, i + 1, ... of a run, `n` of them (the loop of R130 and R140). -/
def emitRun (pixel : Nat → Byte) : Nat → Nat → State → State
  | 0, _, s => s
  | n + 1, i, s => emitRun pixel n (i + 1) (emit (pixel i) s)

/-! ## Rows -/

/-- The fill of EOL and EOB (R121, R122): ROWBUF cells LEN to WIDTH - 1 become FILL_INDEX. -/
def fillRow (s : State) : State :=
  { s with rowbuf := Memory.writeFrom (fun _ => Config.fillIndex) 0 (s.width.toNat - s.len.toNat) s.len.toNat s.rowbuf }

/-- The address of column 0 of the row being decoded in GRID: grid row HEIGHT - 1 - ROW (R55, R93). -/
def gridBase (s : State) : Nat :=
  (s.height.toNat - 1 - s.row.toNat) * s.width.toNat

/-- `CommitRow()` (R93): the row buffer goes to grid row HEIGHT - 1 - ROW, and the next row begins. No cell read is unwritten in a state a run
reaches (R39); one that is gives a free value (log 6). -/
def commitRow (s : State) : State :=
  { s with
    grid := Memory.writeFrom (fun c => (s.rowbuf.read c).getD (Config.freeCell s.fresh c)) (gridBase s) s.width.toNat 0 s.grid
    rowbuf := []
    row := s.row + 1
    len := 0
    sub := .pixels
    padcnt := 0
    fresh := s.fresh + 1 }

/-- The loop of EOB (R122) over `n` rows not yet produced: each is filled from column 0 and committed. -/
def fillRows : Nat → State → State
  | 0, s => s
  | n + 1, s => fillRows n (commitRow (fillRow s))

end Sys2Proof.Machine
end

