-- ==== Sys2Proof/Machine/Operands.lean ====
section
/-! DEFINITION. Operand forms: the numeric codes of the registers (spec/10_state.md R21, R24, spec/60_exceptions.md R150), the fields of a packed byte
(spec/30_encoding.md R75), the pixels of a run (R130, R131, R140) and the padding formula (spec/42_row_padding.md R110). -/

namespace Sys2Proof.Machine

/-- The engine a MODE value selects (R24); 6 and 7 select none. -/
def modeOf (v : BitVec 3) : Option Mode :=
  match v.toNat with
  | 0 => some .depth1
  | 1 => some .depth2
  | 2 => some .depth4
  | 3 => some .depth8
  | 4 => some .depth4Rle
  | 5 => some .depth8Rle
  | _ => none

/-- The MODE value of an engine (R24). -/
def modeCode : Mode → BitVec 3
  | .depth1 => 0
  | .depth2 => 1
  | .depth4 => 2
  | .depth8 => 3
  | .depth4Rle => 4
  | .depth8Rle => 5

/-- b(MODE), bits per pixel (R24). -/
def bitsPerPixel : Mode → Nat
  | .depth1 => 1
  | .depth2 => 2
  | .depth4 => 4
  | .depth8 => 8
  | .depth4Rle => 4
  | .depth8Rle => 8

/-- Modes 0 to 3 are the packed modes (R24). -/
def isPacked : Mode → Bool
  | .depth1 => true
  | .depth2 => true
  | .depth4 => true
  | .depth8 => true
  | .depth4Rle => false
  | .depth8Rle => false

/-- PHASE's two bits (R21). -/
def phaseCode : Phase → Nat
  | .idle => 0
  | .run => 1
  | .done => 2
  | .fault => 3

/-- ERR_KIND's four bits (R150). -/
def errCode : ErrKind → Nat
  | .none => 0
  | .truncatedHeader => 1
  | .truncatedPalette => 2
  | .truncatedRleStream => 3
  | .unsupportedBitDepth => 4
  | .unsupportedCompression => 5
  | .invalidFormatCombination => 6
  | .unsupportedRleEscape => 7
  | .corruptRowLength => 8
  | .unsupportedFormat => 9
  | .truncatedPixelData => 10

/-- Field `j` of a packed byte at `b` bits per pixel, zero-extended: B[7 - j*b : 8 - (j+1)*b] (R75, R104). -/
def field (b j : Nat) (B : Byte) : Byte :=
  (B.extractLsb' (8 - (j + 1) * b) b).setWidth 8

/-- The loop of R104 from field `j` on, `n` fields: each is emitted while LEN < WIDTH. -/
def unpackFields (b : Nat) (B : Byte) : Nat → Nat → State → State
  | 0, _, s => s
  | n + 1, j, s => unpackFields b B n (j + 1) (if s.len < s.width then emit (field b j B) s else s)

/-- Pixel `i` of an RLE4 encoded run: the high nibble at even `i`, the low one at odd `i` (R130). -/
def alternate (p q : BitVec 4) (i : Nat) : Byte :=
  if i % 2 = 0 then p.setWidth 8 else q.setWidth 8

/-- rowBytes (R110): ceil(WIDTH * b / 8), WIDTH as an unsigned number, without wrap (R7). -/
def rowBytes (b : Nat) (width : Reg32) : Nat :=
  (width.toNat * b + 7) / 8

/-- The filler count of a row (R110). -/
def fillerCount (rowBytes : Nat) : Nat :=
  (4 - rowBytes % 4) % 4

/-- The stored length of a row in a packed mode (R112). -/
def storedRow (b : Nat) (width : Reg32) : Nat :=
  (width.toNat * b + 31) / 32 * 4

/-- The literal bytes of ABS8 (the loop of R141), `n` of them. -/
def literals8 : Nat → State → Flow Unit
  | 0, s => .go () s
  | n + 1, s =>
    match fetch .truncatedRleStream s with
    | .raised s1 => .raised s1
    | .go b s1 => literals8 n (emit b s1)

/-- The literal pixels of ABS4 (the loop of R131) from pixel `i` on, `n` of them; `B` is the literal byte fetched last. -/
def literals4 : Nat → Nat → Byte → State → Flow Unit
  | 0, _, _, s => .go () s
  | n + 1, i, B, s =>
    if i % 2 = 0 then
      match fetch .truncatedRleStream s with
      | .raised s1 => .raised s1
      | .go b s1 => literals4 n (i + 1) b (emit (field 4 0 b) s1)
    else literals4 n (i + 1) B (emit (field 4 1 B) s)

/-- The pad byte of an absolute run with `nb` literal bytes (R74): fetched when `nb` is odd, never examined. -/
def padByte (nb : Nat) (s : State) : Flow Unit :=
  if nb % 2 = 1 then
    match fetch .truncatedRleStream s with
    | .raised s1 => .raised s1
    | .go _ s1 => .go () s1
  else .go () s

end Sys2Proof.Machine
end

