-- ==== Sys2Proof/Machine/Escapes.lean ====
section
/-! DEFINITION. The RLE escapes EOL, EOB, DELTA (spec/43_rle_escapes.md), the same in both RLE modes. Each begins with the token fetch of R73. -/

namespace Sys2Proof.Machine

/-- EOL (R121): the rest of the row becomes FILL_INDEX and the row is committed. -/
def execEol (s : State) : Result :=
  (fetchToken s).andThen fun _ s1 => if rowInGrid s1 then .next (commitRow (fillRow s1)) else .fault .rowOutsideGrid

/-- The body of EOB (R122) after the token: the rest of the row and every row not yet produced become FILL_INDEX. -/
def endBitmap (s : State) : State :=
  { fillRows (s.height.toNat - s.row.toNat) s with phase := .done }

/-- EOB (R122). -/
def execEob (s : State) : Result :=
  (fetchToken s).andThen fun _ s1 => if rowInGrid s1 then .next (endBitmap s1) else .fault .rowOutsideGrid

/-- DELTA (R123): always `UnsupportedRleEscape`, at the offset of the token's first byte. -/
def execDelta (s : State) : Result :=
  (fetchToken s).andThen fun t0 s1 => .next (raise .unsupportedRleEscape t0 s1)

end Sys2Proof.Machine
end

