-- ==== Sys2Proof/Machine/Packed.lean ====
section
/-! DEFINITION. The packed-pixel bit-unpacker UNPACK1, UNPACK2, UNPACK4, UNPACK8 (spec/41_packed_unpack.md) and the row-padding scanner PADSET,
PADSKIP (spec/42_row_padding.md). The operand of an unpack is the byte the decoder read at CUR; the operation's Fetch consumes it (log 15). -/

namespace Sys2Proof.Machine

/-- The common scheme (R104): one byte is fetched and its 8 / b fields are emitted, highest bits first, while LEN < WIDTH. -/
def unpack (b : Nat) (B : Byte) (s : State) : Result :=
  (fetch .truncatedPixelData s).andThen fun _ s1 => .next (unpackFields b B (8 / b) 0 s1)

/-- UNPACK1 (R100). -/
def execUnpack1 (B : Byte) (s : State) : Result :=
  unpack 1 B s

/-- UNPACK2 (R101). -/
def execUnpack2 (B : Byte) (s : State) : Result :=
  unpack 2 B s

/-- UNPACK4 (R102). -/
def execUnpack4 (B : Byte) (s : State) : Result :=
  unpack 4 B s

/-- UNPACK8 (R103). -/
def execUnpack8 (B : Byte) (s : State) : Result :=
  unpack 8 B s

/-- PADSET (R110). -/
def execPadset (s : State) : Result :=
  match modeOf s.mode with
  | none => .fault .reservedModeInRun
  | some m => .next { s with padcnt := BitVec.ofNat 2 (fillerCount (rowBytes (bitsPerPixel m) s.width)), sub := .pad }

/-- PADSKIP (R111): the filler byte is fetched and its value discarded. -/
def execPadskip (_B : Byte) (s : State) : Result :=
  (fetch .truncatedPixelData s).andThen fun _ s1 => .next { s1 with padcnt := s1.padcnt - 1 }

end Sys2Proof.Machine
end

