-- ==== Sys2Proof/Machine/Runs.lean ====
section
/-! DEFINITION. The run tokens ENC4, ABS4 (spec/44_rle4_runs.md) and ENC8, ABS8 (spec/45_rle8_runs.md). Each begins with the token fetch of R73. -/

namespace Sys2Proof.Machine

/-- The end of a run (R154): `CorruptRowLength` at the token's offset when LEN > WIDTH. -/
def endRun (t0 : Nat) (s : State) : Result :=
  if rowOverrun s then .next (raise .corruptRowLength t0 s) else .next s

/-- ENC4 (R130). -/
def execEnc4 (n : Byte) (p q : BitVec 4) (s : State) : Result :=
  (fetchToken s).andThen fun t0 s1 => endRun t0 (emitRun (alternate p q) n.toNat 0 s1)

/-- ABS4 (R131): the literal pixels, then the pad byte when the number of literal bytes is odd, then the length test. -/
def execAbs4 (n : Byte) (s : State) : Result :=
  (fetchToken s).andThen fun t0 s1 =>
    (literals4 n.toNat 0 0 s1).andThen fun _ s2 =>
      (padByte ((n.toNat + 1) / 2) s2).andThen fun _ s3 => endRun t0 s3

/-- ENC8 (R140). -/
def execEnc8 (n v : Byte) (s : State) : Result :=
  (fetchToken s).andThen fun t0 s1 => endRun t0 (emitRun (fun _ => v) n.toNat 0 s1)

/-- ABS8 (R141). -/
def execAbs8 (n : Byte) (s : State) : Result :=
  (fetchToken s).andThen fun t0 s1 =>
    (literals8 n.toNat s1).andThen fun _ s2 =>
      (padByte n.toNat s2).andThen fun _ s3 => endRun t0 s3

end Sys2Proof.Machine
end

