-- ==== Sys2Proof/Machine/Sequencer.lean ====
section
/-! DEFINITION. The sequencer operations START, CLEAR, FINISH, ROWEND (spec/40_sequencer.md). -/

namespace Sys2Proof.Machine

/-- The kind of the first test of START that fails, if one does (R90), in the order written (R163 (a)). -/
def startFault (s : State) : Option ErrKind :=
  if (modeOf s.mode).isNone then some .invalidFormatCombination
  else if s.height.msb then some .unsupportedFormat
  else if s.width.msb then some .unsupportedFormat
  else if s.maxWidth < s.width.toNat ∨ s.maxHeight < s.height.toNat then some .unsupportedFormat
  else none

/-- The body of START (R90). -/
def startDecode (s : State) : State :=
  let s1 := { s with cur := s.dataOffset.toNat, errKind := .none, errOffset := 0 }
  match startFault s with
  | some k => raise k s1.cur s1
  | none => { s1 with row := 0, len := 0, sub := .pixels, padcnt := 0, rowbuf := [], grid := [], phase := .run }

/-- START (R90). In a phase other than IDLE the command is ignored (R23, log 7); with a configuration register that holds no value it is refused
(R41). -/
def execStart (s : State) : Result :=
  if s.phase = .idle then
    if configWritten s then .next (startDecode s) else .refused .startConfigUnwritten
  else .next s

/-- CLEAR (R96). In a phase other than DONE and FAULT the command is ignored (R23, log 7). CUR, ROW, LEN, SUB and PADCNT hold no value after
it: free values (log 3). -/
def execClear (s : State) : Result :=
  if s.phase = .done ∨ s.phase = .fault then
    .next { forgetWorking s with phase := .idle, errKind := .none, errOffset := 0, rowbuf := [], grid := [] }
  else .next s

/-- FINISH (R95). -/
def execFinish (s : State) : Result :=
  .next { s with phase := .done }

/-- ROWEND (R94). -/
def execRowend (s : State) : Result :=
  if rowInGrid s then .next (commitRow s) else .fault .rowOutsideGrid

end Sys2Proof.Machine
end

