-- ==== Sys2Proof/Machine/Dispatch.lean ====
section
/-! DEFINITION. One arm per operation (spec/30_encoding.md R81). -/

namespace Sys2Proof.Machine

def exec (i : Instr) (s : State) : Host.Outcome State Fault Refusal :=
  match i with
  | .start => Sys2Proof.Machine.execStart s
  | .clear => Sys2Proof.Machine.execClear s
  | .finish => Sys2Proof.Machine.execFinish s
  | .rowend => Sys2Proof.Machine.execRowend s
  | .unpack1 b => Sys2Proof.Machine.execUnpack1 b s
  | .unpack2 b => Sys2Proof.Machine.execUnpack2 b s
  | .unpack4 b => Sys2Proof.Machine.execUnpack4 b s
  | .unpack8 b => Sys2Proof.Machine.execUnpack8 b s
  | .padset => Sys2Proof.Machine.execPadset s
  | .padskip b => Sys2Proof.Machine.execPadskip b s
  | .eol => Sys2Proof.Machine.execEol s
  | .eob => Sys2Proof.Machine.execEob s
  | .delta => Sys2Proof.Machine.execDelta s
  | .abs4 n => Sys2Proof.Machine.execAbs4 n s
  | .abs8 n => Sys2Proof.Machine.execAbs8 n s
  | .enc4 n p q => Sys2Proof.Machine.execEnc4 n p q s
  | .enc8 n v => Sys2Proof.Machine.execEnc8 n v s

end Sys2Proof.Machine
end

