-- ==== Sys2Proof/Machine/Select.lean ====
section
/-! DEFINITION. Operation selection (spec/30_encoding.md R72) and the decoder agent's turn: selection, decoding at CUR, and the truncation fault when
the bytes are not there (R73, spec/20_memory.md R53). -/

namespace Sys2Proof.Machine

/-- The packed operation of the MODE's width (R72). -/
def unpackContext : Mode → Context
  | .depth1 => .unpack1
  | .depth2 => .unpack2
  | .depth4 => .unpack4
  | .depth8 => .unpack8
  | .depth4Rle => .token .rle4
  | .depth8Rle => .token .rle8

/-- The lines of R72 for a row not yet complete, in one mode: the row's pixels while LEN < WIDTH, then in a packed mode its fillers, then ROWEND. -/
def selectInRow (m : Mode) (s : State) : Context :=
  if isPacked m then
    match s.sub with
    | .pixels => if rowOpen s then unpackContext m else .padset
    | .pad => if s.padcnt = 0 then .rowend else .padskip
  else if rowOpen s then unpackContext m
  else .rowend

/-- `Select` (R72): what the state of phase RUN says of the next operation. `none` is the case no line of R72 covers, a reserved MODE. -/
def select (s : State) : Option Context :=
  if imageComplete s then some .finish
  else
    match modeOf s.mode with
    | none => none
    | some m => some (selectInRow m s)

/-- The error kind of a fetch beyond the end (R53, R152, R158). -/
def truncationKind : Context → ErrKind
  | .token _ => .truncatedRleStream
  | .command _ => .truncatedPixelData
  | .finish => .truncatedPixelData
  | .rowend => .truncatedPixelData
  | .unpack1 => .truncatedPixelData
  | .unpack2 => .truncatedPixelData
  | .unpack4 => .truncatedPixelData
  | .unpack8 => .truncatedPixelData
  | .padset => .truncatedPixelData
  | .padskip => .truncatedPixelData

/-- One operation of the decoder agent in phase RUN (R12, R72, R73). The bytes at CUR are decoded in the context the state selects; a missing byte
is a fault at its offset. The selection never asks for a command, so that refusal has no effect. -/
def decoderOperation (s : State) : Result :=
  match select s with
  | none => .fault .reservedModeInRun
  | some c =>
    match decode c (s.stream.drop s.cur) with
    | .ok (i, _) => exec i s
    | .error (.missingByte k) => .next (raise (truncationKind c) (s.cur + k) s)
    | .error .notACommand => .next s

/-- The decoder agent's turn: an operation in phase RUN, none in the other phases (R72, R202). -/
def decoderTurn (s : State) : Result :=
  match s.phase with
  | .run => decoderOperation s
  | .idle => .next s
  | .done => .next s
  | .fault => .next s

end Sys2Proof.Machine
end

