-- ==== Sys2Proof/Machine/HostPort.lean ====
section
/-! DEFINITION. The host agent (spec/70_reset_and_hazards.md R185, R195, R201): register writes, the stream port, the CTRL port, reads, and the reset input
(R180); and, beside the block, the host's dispatch table (R186). -/

namespace Sys2Proof.Machine

/-- A register write takes effect only in phase IDLE; in any other phase it is ignored (R22, log 7). -/
def whenIdle (s t : State) : State :=
  if s.phase = .idle then t else s

/-- The reset input (R180): every register as after reset (R40). The stream, the implementation's parameters, the host's own moves and what it
has read are not the block's registers and stay. -/
def resetBlock (s : State) : State :=
  { State.reset with
    stream := s.stream
    maxWidth := s.maxWidth
    maxHeight := s.maxHeight
    inbox := s.inbox
    answer := s.answer
    fresh := s.fresh }

/-- What a host read of a register gives (R20, R201), and `none` where R201 lists no such read: a configuration register that holds no value (R40, U13),
CUR and GRID outside phase DONE (R29, R56, R160, U12), a cell GRID does not have (R55), and ERR_OFFSET in DONE. -/
def hostRead (r : HostReg) (s : State) : Option Nat :=
  match r with
  | .phase => some (phaseCode s.phase)
  | .mode => if s.modeWritten then some s.mode.toNat else none
  | .width => if s.widthWritten then some s.width.toNat else none
  | .height => if s.heightWritten then some s.height.toNat else none
  | .dataOffset => if s.dataOffsetWritten then some s.dataOffset.toNat else none
  | .errKind => some (errCode s.errKind)
  | .errOffset => if s.phase = .done then none else some s.errOffset
  | .cur => if s.phase = .done then some s.cur else none
  | .gridCell r c =>
    if s.phase = .done ∧ r < s.height.toNat ∧ c < s.width.toNat then (s.grid.read (r * s.width.toNat + c)).map BitVec.toNat
    else none

/-- The value at the CTRL port is taken: START, CLEAR, or nothing for 0 and 3 (R23, R77). -/
def takeCommand (v : BitVec 2) (s : State) : Result :=
  match decode (.command v) [] with
  | .ok (i, _) => exec i s
  | .error _ => .next s

/-- One move of the host, with the moves after it (R201). A read that R201 does not list is no move: it gives the host no value and disturbs nothing
(log 16). -/
def hostTurn (m : HostMove) (rest : List HostMove) (s : State) : Result :=
  let s1 := { s with inbox := rest }
  match m with
  | .writeMode v => .next (whenIdle s1 { s1 with mode := v, modeWritten := true })
  | .writeWidth v => .next (whenIdle s1 { s1 with width := v, widthWritten := true })
  | .writeHeight v => .next (whenIdle s1 { s1 with height := v, heightWritten := true })
  | .writeDataOffset v => .next (whenIdle s1 { s1 with dataOffset := v, dataOffsetWritten := true })
  | .attach bytes => if s.phase = .run then .refused .streamAlteredInRun else .next { s1 with stream := bytes }
  | .writeCtrl v => .next { s1 with ctrl := some v }
  | .read r => .next { s1 with answer := hostRead r s }
  | .pass => decoderTurn s1
  | .await => if s.phase = .run then decoderTurn s else .next { s1 with answer := hostRead .phase s }
  | .reset => .next (resetBlock s1)

/-- Which agent acts (log 8): the command at the port, else the host's next move, else the decoder. -/
def turn (s : State) : Result :=
  match s.ctrl with
  | some v => takeCommand v { s with ctrl := none }
  | none =>
    match s.inbox with
    | m :: rest => hostTurn m rest s
    | [] => decoderTurn s

/-- What the host does with a header's `bitsPerPixel` and `compression` (R186): a MODE, an error of its own, or a depth outside the block. -/
inductive HostChoice where
  | mode (m : Mode)
  | fail (k : ErrKind)
  | outside
deriving DecidableEq, Repr

/-- The dispatch table of R186. It is the host's: no step reads it. -/
def hostDispatch (bitsPerPixel compression : Nat) : HostChoice :=
  if ¬ (bitsPerPixel = 1 ∨ bitsPerPixel = 2 ∨ bitsPerPixel = 4 ∨ bitsPerPixel = 8 ∨ bitsPerPixel = 16 ∨ bitsPerPixel = 24 ∨ bitsPerPixel = 32) then
    .fail .unsupportedBitDepth
  else if 2 < compression then .fail .unsupportedCompression
  else if compression = 0 then
    if bitsPerPixel = 1 then .mode .depth1
    else if bitsPerPixel = 2 then .mode .depth2
    else if bitsPerPixel = 4 then .mode .depth4
    else if bitsPerPixel = 8 then .mode .depth8
    else .outside
  else if compression = 1 then
    if bitsPerPixel = 8 then .mode .depth8Rle else .fail .invalidFormatCombination
  else if bitsPerPixel = 4 then .mode .depth4Rle
  else .fail .invalidFormatCombination

end Sys2Proof.Machine
end

