-- ==== Sys2Proof/Machine/Step.lean ====
section
/-! DEFINITION. One step, and the state in which the next step runs a given table word. -/

namespace Sys2Proof.Machine

/-- One step of the block and its host. -/
def step (s : State) : Host.Outcome State Fault Refusal :=
  turn s

/-- The number of pixels a table word's instruction puts in a row: the least WIDTH it needs not to fault for an over-long row. -/
def tablePixels (nbits w : Nat) : Nat :=
  match decodeTableWord nbits w with
  | some (.abs4 n) => n.toNat
  | some (.enc4 n _ _) => n.toNat
  | some (.unpack1 _) => 8
  | _ => 1

/-- `s` in the state of phase RUN that the selection of R72 needs to read a byte or a token at CUR: the mode, an open row of a one-row image, and the
bytes `bytes` at CUR, followed by as many zeros as the longest operation can fetch. -/
def State.withRow (s : State) (mode : BitVec 3) (width : Nat) (bytes : List Byte) : State :=
  { s with
    phase := .run
    ctrl := none
    inbox := []
    mode := mode
    width := BitVec.ofNat 32 width
    height := 1
    row := 0
    len := 0
    sub := .pixels
    padcnt := 0
    rowbuf := []
    stream := (s.stream ++ List.replicate s.cur 0).take s.cur ++ bytes ++ List.replicate (258 - bytes.length) 0 }

/-- `s` made ready so that the very next step runs the instruction of a table word (log 14): a command stands at CTRL in a phase that takes it; a byte or
a token stands at CUR in phase RUN; FINISH is selected by ROW = HEIGHT. -/
def State.withFetchWord (s : State) (nbits w : Nat) : State :=
  match tableContext nbits w with
  | .command v =>
    if v = 1 then
      { s with ctrl := some v, phase := .idle, modeWritten := true, widthWritten := true, heightWritten := true, dataOffsetWritten := true }
    else { s with ctrl := some v, phase := .done }
  | .finish => { s with phase := .run, ctrl := none, inbox := [], row := s.height }
  | .unpack1 => s.withRow 0 (tablePixels nbits w) (tableBytes nbits w)
  | .token _ => s.withRow 4 (tablePixels nbits w) (tableBytes nbits w)
  | .rowend => s
  | .padset => s
  | .padskip => s
  | .unpack2 => s
  | .unpack4 => s
  | .unpack8 => s

end Sys2Proof.Machine
end

