-- ==== Sys2Proof/Safety.lean ====
section
/-! DEFINITION. What the claims are stated in: which parts of a state an operation leaves alone, what a fault records, when an operation is selected,
and the invariants of the block (spec/10_state.md R28 to R39, spec/42_row_padding.md R112). -/

namespace Sys2Proof.Machine

/-! ## Frames -/

/-- The configuration, the parameters, the stream, the ports and the host's answer are the same in both states: what no operation of the decoder writes (R22, R50). -/
structure KeepsConfig (s t : State) : Prop where
  mode : t.mode = s.mode
  width : t.width = s.width
  height : t.height = s.height
  dataOffset : t.dataOffset = s.dataOffset
  modeWritten : t.modeWritten = s.modeWritten
  widthWritten : t.widthWritten = s.widthWritten
  heightWritten : t.heightWritten = s.heightWritten
  dataOffsetWritten : t.dataOffsetWritten = s.dataOffsetWritten
  maxWidth : t.maxWidth = s.maxWidth
  maxHeight : t.maxHeight = s.maxHeight
  stream : t.stream = s.stream
  ctrl : t.ctrl = s.ctrl
  inbox : t.inbox = s.inbox
  answer : t.answer = s.answer

/-- PHASE, ERR_KIND and ERR_OFFSET are the same in both states (R28). -/
structure KeepsStatus (s t : State) : Prop where
  phase : t.phase = s.phase
  errKind : t.errKind = s.errKind
  errOffset : t.errOffset = s.errOffset

/-- ROW, SUB and PADCNT are the same in both states (R30, R32). -/
structure KeepsRow (s t : State) : Prop where
  row : t.row = s.row
  sub : t.sub = s.sub
  padcnt : t.padcnt = s.padcnt

/-- Every cell of a memory reads the same in both (R33, R55). -/
def SameCells (m m' : Memory) : Prop :=
  ∀ a, m'.read a = m.read a

/-- `t` is `s` after `raise k(off)`: the kind, the offset and PHASE = FAULT are recorded and the configuration kept. Nothing is said of the working
registers, ROWBUF and GRID, which hold any value (R160). -/
structure FaultedWith (k : ErrKind) (off : Nat) (s t : State) : Prop where
  phase : t.phase = .fault
  errKind : t.errKind = k
  errOffset : t.errOffset = off
  keeps : KeepsConfig s t

/-- A new row has begun (R93): LEN, SUB, PADCNT and ROWBUF as at its start. -/
structure RowBegun (t : State) : Prop where
  len : t.len = 0
  sub : t.sub = .pixels
  padcnt : t.padcnt = 0
  rowbuf : SameCells [] t.rowbuf

/-- What committing a row does (R93): the cells given by `cell` stand in grid row HEIGHT - 1 - ROW, every other cell of GRID is as before, ROW counts
one more, and a new row begins. -/
structure RowCommitted (cell : Nat → Option Byte) (s t : State) : Prop where
  row : t.row.toNat = s.row.toNat + 1
  cells : ∀ c v, c < s.width.toNat → cell c = some v →
    t.grid.read ((s.height.toNat - 1 - s.row.toNat) * s.width.toNat + c) = some v
  others : ∀ a, a < (s.height.toNat - 1 - s.row.toNat) * s.width.toNat ∨
    (s.height.toNat - 1 - s.row.toNat) * s.width.toNat + s.width.toNat ≤ a → t.grid.read a = s.grid.read a
  begun : RowBegun t
  config : KeepsConfig s t

/-- What a run or a packed byte leaves when it raises nothing: `n` pixels given by `pixel` are in ROWBUF from column LEN on and counted, CUR is `len`
bytes further, and everything else is as before (R34, R105). -/
structure PixelsAdded (n len : Nat) (pixel : Nat → Option Byte) (s t : State) : Prop where
  cur : t.cur = s.cur + len
  count : t.len.toNat = s.len.toNat + n
  cells : ∀ c, t.rowbuf.read c =
    if s.len.toNat ≤ c ∧ c < s.len.toNat + n then pixel (c - s.len.toNat) else s.rowbuf.read c
  grid : SameCells s.grid t.grid
  place : KeepsRow s t
  status : KeepsStatus s t
  config : KeepsConfig s t

/-! ## When an operation is selected -/

/-- No host move and no command is pending, so the next step is the decoder's (log 8). -/
structure Quiet (s : State) : Prop where
  ctrl : s.ctrl = none
  inbox : s.inbox = []

/-- Phase RUN in mode `m` with rows still to produce: what the "when" of every packed and RLE operation has in common (R81). -/
structure Running (m : Mode) (s : State) : Prop where
  quiet : Quiet s
  phase : s.phase = .run
  row : s.row < s.height
  mode : modeOf s.mode = some m

/-- The engine of an RLE mode. -/
def rleMode : Rle → Mode
  | .rle4 => .depth4Rle
  | .rle8 => .depth8Rle

/-- The token `(first, second)` stands at CUR (R73). -/
structure TokenAt (first second : Byte) (s : State) : Prop where
  first : s.stream[s.cur]? = some first
  second : s.stream[s.cur + 1]? = some second

/-- A token is expected: an RLE mode in phase RUN with an open row (R72, R120). -/
structure TokenExpected (r : Rle) (s : State) : Prop where
  running : Running (rleMode r) s
  row_open : s.len < s.width

/-- The high nibble of a byte, as a pixel. -/
def highNibble (b : Byte) : Byte :=
  BitVec.ofNat 8 (b.toNat / 16)

/-- The low nibble of a byte, as a pixel. -/
def lowNibble (b : Byte) : Byte :=
  BitVec.ofNat 8 (b.toNat % 16)

/-- Field `j` of a packed byte at `b` bits per pixel by arithmetic on its value: the fields are its base-2^b digits, the highest first (R75). -/
def packedPixel (b j : Nat) (B : Byte) : Byte :=
  BitVec.ofNat 8 (B.toNat / 2 ^ (8 - (j + 1) * b) % 2 ^ b)

/-- The number of pixels of a row still to come. -/
def roomLeft (s : State) : Nat :=
  s.width.toNat - s.len.toNat

/-! ## Invariants -/

/-- Phase RUN (R24, R25, R26, R29, R32, R39). -/
structure RunInv (s : State) : Prop where
  mode : (modeOf s.mode).isSome
  width_legal : s.width.toNat < 2 ^ 31 ∧ s.width.toNat ≤ s.maxWidth
  height_legal : s.height.toNat < 2 ^ 31 ∧ s.height.toNat ≤ s.maxHeight
  row_le : s.row.toNat ≤ s.height.toNat
  len_le : s.len.toNat ≤ s.width.toNat
  rowbuf_written : ∀ c, (s.rowbuf.read c).isSome ↔ c < s.len.toNat
  grid_written : ∀ a, (s.grid.read a).isSome ↔
    (s.height.toNat - s.row.toNat) * s.width.toNat ≤ a ∧ a < s.height.toNat * s.width.toNat
  pad_row_full : s.sub = .pad → s.len = s.width
  pad_packed : s.sub = .pad → ∃ m, modeOf s.mode = some m ∧ isPacked m = true
  pixels_no_pad : s.sub = .pixels → s.padcnt = 0
  cur_ge : s.dataOffset.toNat ≤ s.cur
  cur_le : s.cur ≤ s.stream.length ∨ s.cur = s.dataOffset.toNat
  row_complete : s.row = s.height → s.len = 0 ∧ s.sub = .pixels
  pad_count : ∀ m, modeOf s.mode = some m → s.sub = .pad → s.padcnt.toNat ≤ fillerCount (rowBytes (bitsPerPixel m) s.width)

/-- Phase DONE (R39, R95): every row is there, every cell of GRID is written and no cell beyond it. -/
structure DoneInv (s : State) : Prop where
  mode : (modeOf s.mode).isSome
  row_eq : s.row = s.height
  grid_full : ∀ a, (s.grid.read a).isSome ↔ a < s.height.toNat * s.width.toNat
  cur_ge : s.dataOffset.toNat ≤ s.cur

/-- Phase IDLE (R40, R41): ROWBUF and GRID unwritten. -/
structure IdleInv (s : State) : Prop where
  rowbuf_unwritten : SameCells [] s.rowbuf
  grid_unwritten : SameCells [] s.grid

/-- The invariant of the block. -/
structure Inv (s : State) : Prop where
  rowbuf_wf : s.rowbuf.wf
  grid_wf : s.grid.wf
  no_fault : s.phase ≠ .fault → s.errKind = .none ∧ s.errOffset = 0
  fault_kind : s.phase = .fault → s.errKind ≠ .none
  written : s.phase ≠ .idle → configWritten s = true
  idle : s.phase = .idle → IdleInv s
  run : s.phase = .run → RunInv s
  done : s.phase = .done → DoneInv s

/-- Every index the block holds is below 2^b of its mode (R36), while ROWBUF and GRID hold defined values. -/
def IndicesInRange (s : State) : Prop :=
  ∀ m, modeOf s.mode = some m →
    (s.phase = .run → ∀ c v, s.rowbuf.read c = some v → v.toNat < 2 ^ bitsPerPixel m) ∧
    (s.phase = .run ∨ s.phase = .done → ∀ a v, s.grid.read a = some v → v.toNat < 2 ^ bitsPerPixel m)

/-- Where CUR stands within a stored row of a packed mode (R104, R110, R111): after the pixel bytes of LEN pixels, or before the last PADCNT fillers. -/
def offsetInRow (b : Nat) (s : State) : Nat :=
  match s.sub with
  | .pixels => (s.len.toNat * b + 7) / 8
  | .pad => storedRow b s.width - s.padcnt.toNat

/-- CUR in a packed mode is a function of ROW and of the place in the row (R112): rows lie one after another, each `storedRow` bytes long, and a row's
pixels are taken a whole byte at a time until WIDTH. -/
def PackedPosition (s : State) : Prop :=
  ∀ m, modeOf s.mode = some m → isPacked m = true →
    (s.phase = .run →
      s.cur = s.dataOffset.toNat + s.row.toNat * storedRow (bitsPerPixel m) s.width + offsetInRow (bitsPerPixel m) s ∧
      (s.len.toNat * bitsPerPixel m % 8 = 0 ∨ s.len = s.width)) ∧
    (s.phase = .done → s.cur = s.dataOffset.toNat + s.height.toNat * storedRow (bitsPerPixel m) s.width)

/-- A bound on the operations still to come in phase RUN (R14): every one fetches a byte, or ends a row, or is a row's PADSET, or ends the decode. -/
def operationsLeft (s : State) : Nat :=
  (s.stream.length - s.cur) + 2 * (s.height.toNat - s.row.toNat) + (if s.sub = .pixels then 1 else 0) + 1

/-! ## Only some bytes of the stream matter -/

/-- The state with another stream. -/
def withStream (y : List Byte) (s : State) : State :=
  { s with stream := y }

/-- A step's outcome with another stream in its next state. -/
def resultWithStream (y : List Byte) : Result → Result
  | .next t => .next (withStream y t)
  | .fault r => .fault r
  | .refused r => .refused r

end Sys2Proof.Machine
end

