-- ==== Sys2Proof/Certificates/Slice0/Obligations.lean ====
section
/-! DEFINITION. The statements about the block, from the numbered rules of spec/. Each docstring names the rule and says what is the model's own. -/

open Sys2Proof Sys2Proof.Machine

/-! ## Encoding -/

/-- Decoding the encoding of a well-formed operation, in the context that selects it and with any bytes after it, gives the operation and those bytes:
no bit of an operand is dropped (R71 to R81). -/
def Obligations.DecodeOfEncode : Prop :=
  ∀ (r : Rle) (i : Instr) (rest : List Byte), i.wellFormed = true → decode (contextOf r i) (encode i ++ rest) = .ok (i, rest)

/-- What decodes was encoded so: the bytes taken are the operation's encoding, the operation is well formed and its context is the one it was decoded in. -/
def Obligations.EncodeOfDecode : Prop :=
  ∀ (c : Context) (bytes : List Byte) (i : Instr) (rest : List Byte), decode c bytes = .ok (i, rest) →
    bytes = encode i ++ rest ∧ i.wellFormed = true ∧ ∃ r, contextOf r i = c

/-- Words written out from R71, R75 and R77 decode to what they stand for. -/
def Obligations.ExactWordsDecode : Prop :=
  decode (.token .rle8) [0x03#8, 0x05#8] = .ok (.enc8 3 5, []) ∧
  decode (.token .rle4) [0x05#8, 0x12#8] = .ok (.enc4 5 1 2, []) ∧
  decode (.token .rle4) [0x00#8, 0x05#8] = .ok (.abs4 5, []) ∧
  decode (.token .rle8) [0x00#8, 0x03#8] = .ok (.abs8 3, []) ∧
  decode (.token .rle4) [0x00#8, 0x00#8] = .ok (.eol, []) ∧
  decode (.token .rle8) [0x00#8, 0x01#8] = .ok (.eob, []) ∧
  decode (.token .rle4) [0x00#8, 0x02#8] = .ok (.delta, []) ∧
  decode .unpack1 [0x80#8] = .ok (.unpack1 0x80, []) ∧
  decode .padskip [0xEE#8] = .ok (.padskip 0xEE, []) ∧
  decode (.command 1) [] = .ok (.start, []) ∧
  decode (.command 2) [] = .ok (.clear, []) ∧
  decode (.command 3) [] = .error .notACommand

/-! ## Selection and the step -/

/-- R72: the selection in phase RUN, in the order of its lines, and no operation in the other phases. The modes are given by their numbers (R24). -/
def Obligations.SelectionFollowsTheTable : Prop :=
  ∀ s : State,
    (s.row = s.height → select s = some .finish) ∧
    (s.row ≠ s.height → s.mode.toNat ≤ 3 → s.sub = .pixels → s.len < s.width →
      (s.mode = 0 → select s = some .unpack1) ∧ (s.mode = 1 → select s = some .unpack2) ∧
      (s.mode = 2 → select s = some .unpack4) ∧ (s.mode = 3 → select s = some .unpack8)) ∧
    (s.row ≠ s.height → s.mode.toNat ≤ 3 → s.sub = .pixels → s.width ≤ s.len → select s = some .padset) ∧
    (s.row ≠ s.height → s.mode.toNat ≤ 3 → s.sub = .pad → s.padcnt ≠ 0 → select s = some .padskip) ∧
    (s.row ≠ s.height → s.mode.toNat ≤ 3 → s.sub = .pad → s.padcnt = 0 → select s = some .rowend) ∧
    (s.row ≠ s.height → s.mode = 4 ∨ s.mode = 5 → s.width ≤ s.len → select s = some .rowend) ∧
    (s.row ≠ s.height → s.mode = 4 → s.len < s.width → select s = some (.token .rle4)) ∧
    (s.row ≠ s.height → s.mode = 5 → s.len < s.width → select s = some (.token .rle8)) ∧
    (Quiet s → s.phase ≠ .run → step s = .next s)

/-- A step of the decoder runs the instruction that the bytes at CUR decode to in the selected context. The step adds nothing around exec: the operation
consumes its own bytes. -/
def Obligations.StepRunsDecodedInstruction : Prop :=
  ∀ (s : State) (c : Context) (i : Instr) (rest : List Byte), Quiet s → s.phase = .run → select s = some c →
    decode c (s.stream.drop s.cur) = .ok (i, rest) → step s = exec i s

/-- A command standing at CTRL is taken by the next step, before anything else: 1 is START, 2 is CLEAR, 0 and 3 have no effect. That it goes first is the
model's choice (log 8), that 0 and 3 are ignored the hardware behaviour of R23 (log 7). -/
def Obligations.CommandAtCtrlIsTaken : Prop :=
  ∀ s : State,
    (s.ctrl = some 1 → step s = exec .start { s with ctrl := none }) ∧
    (s.ctrl = some 2 → step s = exec .clear { s with ctrl := none }) ∧
    (s.ctrl = some 0 ∨ s.ctrl = some 3 → step s = .next { s with ctrl := none })

/-- A token operation (R73): where a token is expected its two bytes are fetched and classified, and a missing byte is a truncation at its offset. -/
def Obligations.TokenIsFetchedAndClassified : Prop :=
  ∀ (r : Rle) (s : State), TokenExpected r s →
    (∀ first second : Byte, TokenAt first second s →
      (first ≠ 0 → r = .rle4 → step s = exec (.enc4 first (BitVec.ofNat 4 (second.toNat / 16)) (BitVec.ofNat 4 (second.toNat % 16))) s) ∧
      (first ≠ 0 → r = .rle8 → step s = exec (.enc8 first second) s) ∧
      (first = 0 → second = 0 → step s = exec .eol s) ∧
      (first = 0 → second = 1 → step s = exec .eob s) ∧
      (first = 0 → second = 2 → step s = exec .delta s) ∧
      (first = 0 → 3 ≤ second.toNat → r = .rle4 → step s = exec (.abs4 second) s) ∧
      (first = 0 → 3 ≤ second.toNat → r = .rle8 → step s = exec (.abs8 second) s)) ∧
    (s.stream.length ≤ s.cur → ∃ t, step s = .next t ∧ FaultedWith .truncatedRleStream s.cur s t) ∧
    (s.stream.length = s.cur + 1 → ∃ t, step s = .next t ∧ FaultedWith .truncatedRleStream (s.cur + 1) s t)

/-- `Fetch(K)` (R53): the byte at CUR with CUR + 1, and at the end of the stream `raise K(CUR)`; K is the truncation kind of the mode when a pixel byte, a filler
byte or a token is wanted; and where a fetch fails in phase RUN (in a state of the invariant) CUR is N, or DATA_OFFSET beyond N. -/
def Obligations.FetchReadsOneByteOrFaults : Prop :=
  (∀ (k : ErrKind) (s : State),
    (∀ b : Byte, s.stream[s.cur]? = some b → fetch k s = .go b { s with cur := s.cur + 1 }) ∧
    (s.stream.length ≤ s.cur → ∃ t, fetch k s = .raised t ∧ FaultedWith k s.cur s t)) ∧
  (∀ (m : Mode) (s : State), Running m s → s.stream.length ≤ s.cur →
    (s.sub = .pixels ∧ s.len < s.width) ∨ (isPacked m = true ∧ s.sub = .pad ∧ s.padcnt ≠ 0) →
    ∃ t, step s = .next t ∧ FaultedWith (if isPacked m then .truncatedPixelData else .truncatedRleStream) s.cur s t) ∧
  (∀ s : State, Inv s → s.phase = .run → s.stream.length ≤ s.cur →
    s.cur = s.stream.length ∨ (s.cur = s.dataOffset.toNat ∧ s.stream.length < s.dataOffset.toNat))

/-! ## The sequencer -/

/-- R90: START in IDLE with all four configuration registers written. A reserved MODE, then a size that is negative or over the limits, fault at
DATA_OFFSET; otherwise the decode begins. -/
def Obligations.StartBeginsDecodeOrFaults : Prop :=
  ∀ s : State, s.phase = .idle → configWritten s = true →
    (6 ≤ s.mode.toNat → ∃ t, exec .start s = .next t ∧ FaultedWith .invalidFormatCombination s.dataOffset.toNat s t) ∧
    (s.mode.toNat < 6 → s.height.msb = true ∨ s.width.msb = true ∨ s.maxWidth < s.width.toNat ∨ s.maxHeight < s.height.toNat →
      ∃ t, exec .start s = .next t ∧ FaultedWith .unsupportedFormat s.dataOffset.toNat s t) ∧
    (s.mode.toNat < 6 → s.height.msb = false → s.width.msb = false → s.width.toNat ≤ s.maxWidth → s.height.toNat ≤ s.maxHeight →
      ∃ t, exec .start s = .next t ∧ t.phase = .run ∧ t.errKind = .none ∧ t.errOffset = 0 ∧ t.cur = s.dataOffset.toNat ∧ t.row = 0 ∧
        RowBegun t ∧ SameCells [] t.grid ∧ KeepsConfig s t)

/-- START where it is no move: in another phase it changes nothing, as hardware does (R23, log 7); in IDLE with a configuration register that holds no value it
is refused (R41). CLEAR in IDLE or RUN changes nothing. -/
def Obligations.CommandsOutsideTheirPhase : Prop :=
  ∀ s : State,
    (s.phase ≠ .idle → exec .start s = .next s) ∧
    (s.phase = .idle → configWritten s = false → exec .start s = .refused .startConfigUnwritten) ∧
    (s.phase = .idle ∨ s.phase = .run → exec .clear s = .next s)

/-- R96: CLEAR in DONE or FAULT. Nothing is said of CUR, ROW, LEN, SUB and PADCNT, which hold no value after it. -/
def Obligations.ClearReturnsToIdle : Prop :=
  ∀ s : State, s.phase = .done ∨ s.phase = .fault →
    ∃ t, exec .clear s = .next t ∧ t.phase = .idle ∧ t.errKind = .none ∧ t.errOffset = 0 ∧
      SameCells [] t.rowbuf ∧ SameCells [] t.grid ∧ KeepsConfig s t

/-- R94: when ROWEND is selected, that in an RLE mode LEN is WIDTH then (in a state of the invariant), and that it commits the row as it stands. -/
def Obligations.RowendCommitsTheRow : Prop :=
  (∀ (m : Mode) (s : State), Running m s →
    (isPacked m = true ∧ s.sub = .pad ∧ s.padcnt = 0) ∨ (isPacked m = false ∧ s.width ≤ s.len) → step s = exec .rowend s) ∧
  (∀ (m : Mode) (s : State), Inv s → Running m s → isPacked m = false → s.width ≤ s.len → s.len = s.width) ∧
  (∀ s : State, s.row < s.height →
    ∃ t, exec .rowend s = .next t ∧ RowCommitted (fun c => s.rowbuf.read c) s t ∧ t.cur = s.cur ∧ KeepsStatus s t)

/-- R95: FINISH is selected when ROW = HEIGHT, whatever stands in the stream, and only PHASE changes. -/
def Obligations.FinishEndsTheDecode : Prop :=
  (∀ s : State, Quiet s → s.phase = .run → s.row = s.height → step s = exec .finish s) ∧
  (∀ s : State, exec .finish s = .next { s with phase := .done })

/-- Where the model stops by name, in states no run reaches: a reserved MODE in phase RUN, PADSET under one, and a commit of a row GRID does not have. -/
def Obligations.StopsByName : Prop :=
  (∀ s : State, Quiet s → s.phase = .run → s.row ≠ s.height → 6 ≤ s.mode.toNat → step s = .fault .reservedModeInRun) ∧
  (∀ s : State, 6 ≤ s.mode.toNat → exec .padset s = .fault .reservedModeInRun) ∧
  (∀ s : State, s.height ≤ s.row → exec .rowend s = .fault .rowOutsideGrid) ∧
  (∀ s : State, s.height ≤ s.row → s.cur + 2 ≤ s.stream.length →
    exec .eol s = .fault .rowOutsideGrid ∧ exec .eob s = .fault .rowOutsideGrid)

/-! ## The bit-unpacker and the row-padding scanner -/

/-- R104 with R100 to R103: one packed byte at 1, 2, 4 or 8 bits per pixel. As many of its fields as the row has room for are added, the highest bits first; a
missing byte is a truncation at CUR. The byte is the operand, which the decoder read at CUR. -/
def Obligations.UnpackAddsTheFieldsOfOneByte : Prop :=
  ∀ (i : Byte → Instr) (b : Nat), (i = .unpack1 ∧ b = 1) ∨ (i = .unpack2 ∧ b = 2) ∨ (i = .unpack4 ∧ b = 4) ∨ (i = .unpack8 ∧ b = 8) →
    ∀ (s : State) (B : Byte),
      (s.cur < s.stream.length →
        ∃ t, exec (i B) s = .next t ∧ PixelsAdded (min (8 / b) (roomLeft s)) 1 (fun j => some (packedPixel b j B)) s t) ∧
      (s.stream.length ≤ s.cur → ∃ t, exec (i B) s = .next t ∧ FaultedWith .truncatedPixelData s.cur s t)

/-- R100 to R103, "Selected when": in a packed mode, with an open row in its pixels, the byte at CUR is unpacked by the mode's operation. -/
def Obligations.UnpackIsSelectedByMode : Prop :=
  ∀ (m : Mode) (s : State) (B : Byte), Running m s → s.sub = .pixels → s.len < s.width → s.stream[s.cur]? = some B →
    (m = .depth1 → step s = exec (.unpack1 B) s) ∧ (m = .depth2 → step s = exec (.unpack2 B) s) ∧
    (m = .depth4 → step s = exec (.unpack4 B) s) ∧ (m = .depth8 → step s = exec (.unpack8 B) s)

/-- R110: when PADSET is selected; the filler count by the row's bytes, each depth's own; and that only PADCNT and SUB change. -/
def Obligations.PadsetCountsTheFillers : Prop :=
  (∀ (m : Mode) (s : State), Running m s → isPacked m = true → s.sub = .pixels → s.width ≤ s.len → step s = exec .padset s) ∧
  (∀ (s : State) (rowBytes : Nat),
    (s.mode = 0 ∧ rowBytes = (s.width.toNat + 7) / 8) ∨ (s.mode = 1 ∧ rowBytes = (s.width.toNat + 3) / 4) ∨
    (s.mode = 2 ∧ rowBytes = (s.width.toNat + 1) / 2) ∨ (s.mode = 3 ∧ rowBytes = s.width.toNat) →
    ∃ t, exec .padset s = .next t ∧ t.padcnt.toNat = (4 - rowBytes % 4) % 4 ∧ t = { s with padcnt := t.padcnt, sub := .pad })

/-- R111: when PADSKIP is selected; a filler byte is fetched, whatever it is, and counted off; a missing one is a truncation at CUR. -/
def Obligations.PadskipSkipsOneFiller : Prop :=
  (∀ (m : Mode) (s : State) (B : Byte), Running m s → isPacked m = true → s.sub = .pad → s.padcnt ≠ 0 → s.stream[s.cur]? = some B →
    step s = exec (.padskip B) s) ∧
  (∀ (s : State) (B : Byte),
    (s.cur < s.stream.length → exec (.padskip B) s = .next { s with cur := s.cur + 1, padcnt := s.padcnt - 1 }) ∧
    (s.stream.length ≤ s.cur → ∃ t, exec (.padskip B) s = .next t ∧ FaultedWith .truncatedPixelData s.cur s t))

/-- R112: pixel bytes and fillers of a row make a multiple of four bytes, the least that holds WIDTH pixels of b bits. -/
def Obligations.StoredRowIsRowBytesAndFillers : Prop :=
  ∀ (b : Nat) (width : Reg32), b = 1 ∨ b = 2 ∨ b = 4 ∨ b = 8 →
    rowBytes b width + fillerCount (rowBytes b width) = storedRow b width ∧ fillerCount (rowBytes b width) ≤ 3 ∧
    storedRow b width % 4 = 0 ∧ width.toNat * b ≤ 8 * storedRow b width ∧ 8 * storedRow b width < width.toNat * b + 32

/-! ## The escapes -/

/-- R121: EOL, the token (0, 0) where a token is expected, fills the rest of the row with index 0 and commits it; a missing token byte is a truncation. -/
def Obligations.EolFillsAndCommitsTheRow : Prop :=
  (∀ (r : Rle) (s : State), TokenExpected r s → TokenAt 0 0 s → step s = exec .eol s) ∧
  ∀ s : State,
    (s.cur + 2 ≤ s.stream.length → s.row < s.height →
      ∃ t, exec .eol s = .next t ∧ t.cur = s.cur + 2 ∧ KeepsStatus s t ∧
        RowCommitted (fun c => if s.len.toNat ≤ c then some 0 else s.rowbuf.read c) s t) ∧
    (s.stream.length < s.cur + 2 → ∃ t, exec .eol s = .next t ∧ FaultedWith .truncatedRleStream (max s.cur s.stream.length) s t)

/-- R122: EOB, the token (0, 1) where a token is expected, fills the rest of the row and every row above it in the grid with index 0, produces all rows, and ends the decode; rows already produced stay. -/
def Obligations.EobFillsTheGridAndEnds : Prop :=
  (∀ (r : Rle) (s : State), TokenExpected r s → TokenAt 0 1 s → step s = exec .eob s) ∧
  ∀ s : State,
    (s.cur + 2 ≤ s.stream.length → s.row < s.height →
      ∃ t, exec .eob s = .next t ∧ t.phase = .done ∧ t.errKind = s.errKind ∧ t.errOffset = s.errOffset ∧ t.cur = s.cur + 2 ∧ t.row = s.height ∧
        RowBegun t ∧ KeepsConfig s t ∧
        (∀ c, s.len.toNat ≤ c → c < s.width.toNat → t.grid.read ((s.height.toNat - 1 - s.row.toNat) * s.width.toNat + c) = some 0) ∧
        (∀ c v, c < s.len.toNat → c < s.width.toNat → s.rowbuf.read c = some v →
          t.grid.read ((s.height.toNat - 1 - s.row.toNat) * s.width.toNat + c) = some v) ∧
        (∀ a, a < (s.height.toNat - 1 - s.row.toNat) * s.width.toNat → t.grid.read a = some 0) ∧
        (∀ a, (s.height.toNat - 1 - s.row.toNat) * s.width.toNat + s.width.toNat ≤ a → t.grid.read a = s.grid.read a)) ∧
    (s.stream.length < s.cur + 2 → ∃ t, exec .eob s = .next t ∧ FaultedWith .truncatedRleStream (max s.cur s.stream.length) s t)

/-- R123: DELTA, the token (0, 2) where a token is expected, raises UnsupportedRleEscape at the token's first byte, also where the stream ends right after the token. -/
def Obligations.DeltaFaultsAtItsToken : Prop :=
  (∀ (r : Rle) (s : State), TokenExpected r s → TokenAt 0 2 s → step s = exec .delta s) ∧
  ∀ s : State,
    (s.cur + 2 ≤ s.stream.length → ∃ t, exec .delta s = .next t ∧ FaultedWith .unsupportedRleEscape s.cur s t) ∧
    (s.stream.length < s.cur + 2 → ∃ t, exec .delta s = .next t ∧ FaultedWith .truncatedRleStream (max s.cur s.stream.length) s t)

/-! ## The runs -/

/-- R130: ENC4, a token with first ≠ 0 in mode Depth4Rle, adds n pixels p, q, p, ... when the row has room for them, faults with CorruptRowLength at its token when it has not, and is truncated when a
token byte is missing. -/
def Obligations.Enc4AddsAlternatingPixels : Prop :=
  (∀ (s : State) (n second : Byte), TokenExpected .rle4 s → n ≠ 0 → TokenAt n second s →
    step s = exec (.enc4 n (BitVec.ofNat 4 (second.toNat / 16)) (BitVec.ofNat 4 (second.toNat % 16))) s) ∧
  ∀ (s : State) (n : Byte) (p q : BitVec 4),
    (s.cur + 2 ≤ s.stream.length → s.len.toNat + n.toNat ≤ s.width.toNat →
      ∃ t, exec (.enc4 n p q) s = .next t ∧
        PixelsAdded n.toNat 2 (fun i => some (if i % 2 = 0 then p.setWidth 8 else q.setWidth 8)) s t) ∧
    (s.cur + 2 ≤ s.stream.length → s.len < s.width → s.width.msb = false → s.width.toNat < s.len.toNat + n.toNat →
      ∃ t, exec (.enc4 n p q) s = .next t ∧ FaultedWith .corruptRowLength s.cur s t) ∧
    (s.stream.length < s.cur + 2 → ∃ t, exec (.enc4 n p q) s = .next t ∧ FaultedWith .truncatedRleStream (max s.cur s.stream.length) s t)

/-- R140: ENC8, a token with first ≠ 0 in mode Depth8Rle, adds n pixels v, or faults as ENC4 does. -/
def Obligations.Enc8AddsRepeatedPixels : Prop :=
  (∀ (s : State) (n v : Byte), TokenExpected .rle8 s → n ≠ 0 → TokenAt n v s → step s = exec (.enc8 n v) s) ∧
  ∀ (s : State) (n v : Byte),
    (s.cur + 2 ≤ s.stream.length → s.len.toNat + n.toNat ≤ s.width.toNat →
      ∃ t, exec (.enc8 n v) s = .next t ∧ PixelsAdded n.toNat 2 (fun _ => some v) s t) ∧
    (s.cur + 2 ≤ s.stream.length → s.len < s.width → s.width.msb = false → s.width.toNat < s.len.toNat + n.toNat →
      ∃ t, exec (.enc8 n v) s = .next t ∧ FaultedWith .corruptRowLength s.cur s t) ∧
    (s.stream.length < s.cur + 2 → ∃ t, exec (.enc8 n v) s = .next t ∧ FaultedWith .truncatedRleStream (max s.cur s.stream.length) s t)

/-- R131: ABS4, a token (0, n) with n ≥ 3 in mode Depth4Rle, adds n pixels from the ceil(n/2) bytes after its token, the high nibble first, and consumes a pad byte when that number is odd. A run too long for
the row faults with CorruptRowLength at the token once all its bytes are fetched; a missing byte is a truncation, also where the run is too long. -/
def Obligations.Abs4AddsLiteralNibbles : Prop :=
  (∀ (s : State) (n : Byte), TokenExpected .rle4 s → 3 ≤ n.toNat → TokenAt 0 n s → step s = exec (.abs4 n) s) ∧
  ∀ (s : State) (n : Byte),
    (s.cur + 2 + (n.toNat + 1) / 2 + (n.toNat + 1) / 2 % 2 ≤ s.stream.length → s.len.toNat + n.toNat ≤ s.width.toNat →
      ∃ t, exec (.abs4 n) s = .next t ∧
        PixelsAdded n.toNat (2 + (n.toNat + 1) / 2 + (n.toNat + 1) / 2 % 2)
          (fun i => (s.stream[s.cur + 2 + i / 2]?).map (if i % 2 = 0 then highNibble else lowNibble)) s t) ∧
    (s.cur + 2 + (n.toNat + 1) / 2 + (n.toNat + 1) / 2 % 2 ≤ s.stream.length → s.len < s.width → s.width.msb = false →
      s.width.toNat < s.len.toNat + n.toNat → ∃ t, exec (.abs4 n) s = .next t ∧ FaultedWith .corruptRowLength s.cur s t) ∧
    (s.stream.length < s.cur + 2 + (n.toNat + 1) / 2 + (n.toNat + 1) / 2 % 2 →
      ∃ t, exec (.abs4 n) s = .next t ∧ FaultedWith .truncatedRleStream (max s.cur s.stream.length) s t)

/-- R141: ABS8, a token (0, n) with n ≥ 3 in mode Depth8Rle, adds the n bytes after its token and consumes a pad byte when n is odd, or faults as ABS4 does. -/
def Obligations.Abs8AddsLiteralBytes : Prop :=
  (∀ (s : State) (n : Byte), TokenExpected .rle8 s → 3 ≤ n.toNat → TokenAt 0 n s → step s = exec (.abs8 n) s) ∧
  ∀ (s : State) (n : Byte),
    (s.cur + 2 + n.toNat + n.toNat % 2 ≤ s.stream.length → s.len.toNat + n.toNat ≤ s.width.toNat →
      ∃ t, exec (.abs8 n) s = .next t ∧ PixelsAdded n.toNat (2 + n.toNat + n.toNat % 2) (fun i => s.stream[s.cur + 2 + i]?) s t) ∧
    (s.cur + 2 + n.toNat + n.toNat % 2 ≤ s.stream.length → s.len < s.width → s.width.msb = false →
      s.width.toNat < s.len.toNat + n.toNat → ∃ t, exec (.abs8 n) s = .next t ∧ FaultedWith .corruptRowLength s.cur s t) ∧
    (s.stream.length < s.cur + 2 + n.toNat + n.toNat % 2 →
      ∃ t, exec (.abs8 n) s = .next t ∧ FaultedWith .truncatedRleStream (max s.cur s.stream.length) s t)

/-! ## Shared operations -/

/-- R93: CommitRow, called with ROW < HEIGHT. -/
def Obligations.CommitRowPlacesTheRow : Prop :=
  ∀ s : State, s.row < s.height →
    RowCommitted (fun c => s.rowbuf.read c) s (commitRow s) ∧ (commitRow s).cur = s.cur ∧ KeepsStatus s (commitRow s)

/-- R34: Emit stores the pixel only while LEN < WIDTH and always counts it; nothing else changes. -/
def Obligations.EmitStoresWhileTheRowIsOpen : Prop :=
  ∀ (v : Byte) (s : State),
    (emit v s).len = s.len + 1 ∧
    (∀ c, (emit v s).rowbuf.read c = if c = s.len.toNat ∧ s.len < s.width then some v else s.rowbuf.read c) ∧
    emit v s = { s with len := (emit v s).len, rowbuf := (emit v s).rowbuf }

/-- R160: raise records the kind and the offset and puts the block in phase FAULT, where the decoder has no further operation, and where the host reads the kind,
the offset, PHASE and the configuration and neither CUR nor GRID. Nothing is said of what holds any value there. -/
def Obligations.RaiseRecordsKindAndOffset : Prop :=
  ∀ (k : ErrKind) (off : Nat) (s t : State), t = raise k off s →
    FaultedWith k off s t ∧ (Quiet s → step t = .next t) ∧
    hostRead .phase t = some 3 ∧ hostRead .errKind t = some (errCode k) ∧ hostRead .errOffset t = some off ∧
    hostRead .mode t = hostRead .mode s ∧ hostRead .width t = hostRead .width s ∧ hostRead .height t = hostRead .height s ∧
    hostRead .dataOffset t = hostRead .dataOffset s ∧ hostRead .cur t = none ∧ ∀ r c, hostRead (.gridCell r c) t = none

/-! ## Reset and the host -/

/-- What reset leaves (R40, R180), as State.reset and as the host's reset move in any phase: PHASE IDLE, no error, ROWBUF and GRID unwritten, and no readable value in
any configuration register, in CUR or in GRID. The zeros the model holds there (log 1) are not stated. -/
def Obligations.ResetLeavesIdleAndNoValues : Prop :=
  ∀ t : State, (t = State.reset ∨ ∃ (s : State) (rest : List HostMove), s.ctrl = none ∧ s.inbox = .reset :: rest ∧ step s = .next t) →
    t.phase = .idle ∧ t.errKind = .none ∧ t.errOffset = 0 ∧ SameCells [] t.rowbuf ∧ SameCells [] t.grid ∧
    hostRead .mode t = none ∧ hostRead .width t = none ∧ hostRead .height t = none ∧ hostRead .dataOffset t = none ∧
    hostRead .cur t = none ∧ ∀ r c, hostRead (.gridCell r c) t = none

/-- R22: a write of a configuration register takes effect in phase IDLE and is ignored, as hardware does (log 7), in any other phase.
That the move is taken from `inbox` is the model's (log 8). -/
def Obligations.HostWritesOnlyInIdle : Prop :=
  ∀ (s : State) (rest : List HostMove), s.ctrl = none →
    (∀ v, s.inbox = .writeMode v :: rest →
      step s = .next (if s.phase = .idle then { s with inbox := rest, mode := v, modeWritten := true } else { s with inbox := rest })) ∧
    (∀ v, s.inbox = .writeWidth v :: rest →
      step s = .next (if s.phase = .idle then { s with inbox := rest, width := v, widthWritten := true } else { s with inbox := rest })) ∧
    (∀ v, s.inbox = .writeHeight v :: rest →
      step s = .next (if s.phase = .idle then { s with inbox := rest, height := v, heightWritten := true } else { s with inbox := rest })) ∧
    (∀ v, s.inbox = .writeDataOffset v :: rest →
      step s = .next (if s.phase = .idle then { s with inbox := rest, dataOffset := v, dataOffsetWritten := true } else { s with inbox := rest }))

/-- The host's other moves, which the model takes from `inbox` (log 8): attaching sets the stream outside phase RUN and is refused in it (R52, R201, log 9); a write of
CTRL puts the value at the port (R23), where the next step takes it; `pass` leaves the decoder one turn, and `await` stays the next move while PHASE is RUN and then gives the host
PHASE (R185, log 16). -/
def Obligations.HostAttachesCommandsAndWaits : Prop :=
  ∀ (s : State) (rest : List HostMove), s.ctrl = none →
    (∀ bytes, s.inbox = .attach bytes :: rest → s.phase ≠ .run → step s = .next { s with inbox := rest, stream := bytes }) ∧
    (∀ bytes, s.inbox = .attach bytes :: rest → s.phase = .run → step s = .refused .streamAlteredInRun) ∧
    (∀ v, s.inbox = .writeCtrl v :: rest → step s = .next { s with inbox := rest, ctrl := some v }) ∧
    (s.inbox = .pass :: rest → step s = decoderTurn { s with inbox := rest }) ∧
    (s.inbox = .await :: rest →
      step s = if s.phase = .run then decoderTurn s
        else .next { s with inbox := rest, answer := some (match s.phase with | .idle => 0 | .run => 1 | .done => 2 | .fault => 3) })

/-- R201, reads, in every phase. PHASE and ERR_KIND read as their codes; ERR_OFFSET as held in IDLE, RUN and FAULT, where R201 lists it; a configuration register
as written, and not at all while it holds no value (R40, U13); CUR and the cells of GRID in DONE only. A step that makes a read puts what it gives into `answer` and
changes nothing else but `inbox`; that a read which is no move gives no value and is passed over is the model's (log 16), and so is the order of the moves (log 8). -/
def Obligations.HostReadsFollowTheTable : Prop :=
  ∀ s : State,
    hostRead .phase s = some (match s.phase with | .idle => 0 | .run => 1 | .done => 2 | .fault => 3) ∧
    hostRead .errKind s = some (match s.errKind with
      | .none => 0 | .truncatedHeader => 1 | .truncatedPalette => 2 | .truncatedRleStream => 3 | .unsupportedBitDepth => 4
      | .unsupportedCompression => 5 | .invalidFormatCombination => 6 | .unsupportedRleEscape => 7 | .corruptRowLength => 8
      | .unsupportedFormat => 9 | .truncatedPixelData => 10) ∧
    hostRead .errOffset s = (if s.phase = .done then none else some s.errOffset) ∧
    hostRead .mode s = (if s.modeWritten = true then some s.mode.toNat else none) ∧
    hostRead .width s = (if s.widthWritten = true then some s.width.toNat else none) ∧
    hostRead .height s = (if s.heightWritten = true then some s.height.toNat else none) ∧
    hostRead .dataOffset s = (if s.dataOffsetWritten = true then some s.dataOffset.toNat else none) ∧
    hostRead .cur s = (if s.phase = .done then some s.cur else none) ∧
    (s.phase ≠ .done → ∀ r c, hostRead (.gridCell r c) s = none) ∧
    (s.phase = .done → ∀ r c, r < s.height.toNat → c < s.width.toNat → ∀ v, s.grid.read (r * s.width.toNat + c) = some v →
      hostRead (.gridCell r c) s = some v.toNat) ∧
    (∀ r c, s.height.toNat ≤ r ∨ s.width.toNat ≤ c → hostRead (.gridCell r c) s = none) ∧
    (∀ (x : HostReg) (rest : List HostMove), s.ctrl = none → s.inbox = .read x :: rest →
      step s = .next { s with inbox := rest, answer := hostRead x s })

/-- The error codes of R150. -/
def Obligations.ErrorCodesAreThoseOfTheTable : Prop :=
  ∀ s : State, hostRead .errKind s = some (match s.errKind with
    | .none => 0 | .truncatedHeader => 1 | .truncatedPalette => 2 | .truncatedRleStream => 3 | .unsupportedBitDepth => 4
    | .unsupportedCompression => 5 | .invalidFormatCombination => 6 | .unsupportedRleEscape => 7 | .corruptRowLength => 8
    | .unsupportedFormat => 9 | .truncatedPixelData => 10)

/-- The host's dispatch table (R186): the MODE for each supported pair of depth and compression, and the kind the host fails with for every other. -/
def Obligations.HostDispatchFollowsTheTable : Prop :=
  (∀ depth compression : Nat, depth ∉ [1, 2, 4, 8, 16, 24, 32] → hostDispatch depth compression = .fail .unsupportedBitDepth) ∧
  (∀ depth compression : Nat, depth ∈ [1, 2, 4, 8, 16, 24, 32] → compression ∉ [0, 1, 2] →
    hostDispatch depth compression = .fail .unsupportedCompression) ∧
  hostDispatch 1 0 = .mode .depth1 ∧ hostDispatch 2 0 = .mode .depth2 ∧ hostDispatch 4 0 = .mode .depth4 ∧ hostDispatch 8 0 = .mode .depth8 ∧
  (∀ depth : Nat, depth ∈ [16, 24, 32] → hostDispatch depth 0 = .outside) ∧
  hostDispatch 8 1 = .mode .depth8Rle ∧ hostDispatch 4 2 = .mode .depth4Rle ∧
  (∀ depth : Nat, depth ∈ [1, 2, 4, 16, 24, 32] → hostDispatch depth 1 = .fail .invalidFormatCombination) ∧
  (∀ depth : Nat, depth ∈ [1, 2, 8, 16, 24, 32] → hostDispatch depth 2 = .fail .invalidFormatCombination)

/-! ## Invariants -/

/-- The invariant holds at reset. -/
def Obligations.ResetMeetsInvariants : Prop :=
  Inv State.reset ∧ IndicesInRange State.reset ∧ PackedPosition State.reset

/-- R39 with R28 to R33: every step from a state of the invariant that gives a next state gives one of the invariant, host moves and faults included. -/
def Obligations.StepKeepsInvariant : Prop :=
  ∀ s t : State, Inv s → step s = .next t → Inv t

/-- R36: every index in ROWBUF and GRID stays below 2^b. -/
def Obligations.StepKeepsIndicesInRange : Prop :=
  ∀ s t : State, Inv s → IndicesInRange s → step s = .next t → IndicesInRange t

/-- R112 with R104, R110, R111: in a packed mode CUR stays DATA_OFFSET plus ROW stored rows plus the place in the row, so that a decode that ends in DONE has consumed
exactly HEIGHT * ceil(WIDTH * b / 32) * 4 bytes. -/
def Obligations.StepKeepsPackedPosition : Prop :=
  ∀ s t : State, Inv s → PackedPosition s → step s = .next t → PackedPosition t

/-! ## The whole machine -/

/-- R162: from a state of the invariant, with no host move pending, the step gives a next state: no operation is without an effect. -/
def Obligations.DecoderNeverStops : Prop :=
  ∀ s : State, Inv s → Quiet s → ∃ t, step s = .next t

/-- R14: every decode ends. From any state of the invariant in phase RUN, with no host move pending, the block is in DONE or FAULT after at most
`operationsLeft` steps. -/
def Obligations.EveryDecodeEnds : Prop :=
  ∀ s : State, Inv s → Quiet s → s.phase = .run →
    ∃ (k : Nat) (t : State), k ≤ operationsLeft s ∧ Host.Core.run Sys2Proof.core k s = .next t ∧ (t.phase = .done ∨ t.phase = .fault)

/-- R164: only CLEAR and reset leave phase FAULT, and both discard the decode; while the block stays in it the error it holds does not change. -/
def Obligations.FaultIsLeftOnlyByClearOrReset : Prop :=
  ∀ s t : State, s.phase = .fault → step s = .next t →
    (t.phase = .fault ∧ t.errKind = s.errKind ∧ t.errOffset = s.errOffset) ∨
    (s.ctrl = some 2 ∨ (s.ctrl = none ∧ ∃ rest, s.inbox = .reset :: rest)) ∧
      t.phase = .idle ∧ t.errKind = .none ∧ t.errOffset = 0 ∧ SameCells [] t.rowbuf ∧ SameCells [] t.grid

/-- R202: phase DONE is entered only from RUN, by FINISH (ROW = HEIGHT) or by an EOB token where a token is expected. -/
def Obligations.DoneIsReachedOnlyByFinishOrEob : Prop :=
  ∀ s t : State, s.phase ≠ .done → t.phase = .done → step s = .next t →
    s.phase = .run ∧ (s.row = s.height ∨ ∃ r, modeOf s.mode = some (rleMode r) ∧ s.len < s.width ∧ TokenAt 0 1 s)

/-- R22: a step changes a configuration register only by the host's write of it in phase IDLE, or by reset; the block never writes them. -/
def Obligations.ConfigurationChangesOnlyByHostWrites : Prop :=
  ∀ s t : State, step s = .next t → ¬ (s.ctrl = none ∧ ∃ rest, s.inbox = .reset :: rest) →
    (t.mode = s.mode ∨ (s.phase = .idle ∧ ∃ rest, s.inbox = .writeMode t.mode :: rest)) ∧
    (t.width = s.width ∨ (s.phase = .idle ∧ ∃ rest, s.inbox = .writeWidth t.width :: rest)) ∧
    (t.height = s.height ∨ (s.phase = .idle ∧ ∃ rest, s.inbox = .writeHeight t.height :: rest)) ∧
    (t.dataOffset = s.dataOffset ∨ (s.phase = .idle ∧ ∃ rest, s.inbox = .writeDataOffset t.dataOffset :: rest))

/-- R50 and R52: the stream is never written by the block and never changes in phase RUN; the host's attempt is refused (U15). -/
def Obligations.StreamIsFixedDuringRun : Prop :=
  (∀ s t : State, step s = .next t → t.stream = s.stream ∨ (s.phase ≠ .run ∧ ∃ rest, s.inbox = .attach t.stream :: rest)) ∧
  (∀ (s : State) (bytes : List Byte) (rest : List HostMove), s.ctrl = none → s.phase = .run → s.inbox = .attach bytes :: rest →
    step s = .refused .streamAlteredInRun)

/-- R156: the block never writes the host-side error codes 1, 2, 4 and 5, nor a reserved one. -/
def Obligations.HostSideErrorKindsAreNeverWritten : Prop :=
  ∀ s t : State, step s = .next t → t.errKind = s.errKind ∨ errCode t.errKind ∈ [0, 3, 6, 7, 8, 9, 10]

/-- R79 with R29: an operation of the decoder that does not fault moves CUR forward by its length and no further. -/
def Obligations.OperationConsumesItsLength : Prop :=
  ∀ (i : Instr) (s t : State), i.format ≠ .c → exec i s = .next t → t.phase ≠ .fault → t.cur = s.cur + instrLength i

/-- R51: no byte below CUR is read. Two streams of one length that agree from CUR on give the same step. -/
def Obligations.BytesBelowCurAreNotRead : Prop :=
  ∀ (s : State) (y : List Byte), Quiet s → s.phase = .run → y.length = s.stream.length → y.drop s.cur = s.stream.drop s.cur →
    step (withStream y s) = resultWithStream y (step s)

/-- R104, R110, R111 and R93 together: in a packed mode, from the beginning of a row whose stored bytes are all there, the row's unpack operations, PADSET, its PADSKIPs and
ROWEND put every pixel in its place: column c of grid row HEIGHT - 1 - ROW is field c mod (8 / b) of byte c * b / 8 of the stored row. -/
def Obligations.PackedRowIsDecodedWhole : Prop :=
  ∀ (m : Mode) (b : Nat) (s : State), (m = .depth1 ∧ b = 1) ∨ (m = .depth2 ∧ b = 2) ∨ (m = .depth4 ∧ b = 4) ∨ (m = .depth8 ∧ b = 8) →
    Running m s → s.sub = .pixels → s.len = 0 → s.cur + storedRow b s.width ≤ s.stream.length →
    ∃ t : State, Host.Core.run Sys2Proof.core (rowBytes b s.width + 1 + fillerCount (rowBytes b s.width) + 1) s = .next t ∧
      RowCommitted (fun c => (s.stream[s.cur + c * b / 8]?).map (packedPixel b (c % (8 / b)))) s t ∧
      t.cur = s.cur + storedRow b s.width ∧ KeepsStatus s t
end

