-- ==== Sys2Proof/Laws/Decode.lean ====
section
/-! SUPPORT. The token classes of R73, one lemma each, and how a byte and its two nibbles go over into each other. -/

namespace Sys2Proof

/-- A token with first = 0 and second at least 3 is an absolute run. -/
theorem classify_absolute (r : Rle) {second : Byte} (h : 3 ≤ second.toNat) :
    classify r 0 second = absoluteRun r second := by
  have h0 : second ≠ 0 := by rintro rfl; exact absurd h (by decide)
  have h1 : second ≠ 1 := by rintro rfl; exact absurd h (by decide)
  have h2 : second ≠ 2 := by rintro rfl; exact absurd h (by decide)
  rw [classify, if_pos rfl, if_neg h0, if_neg h1, if_neg h2]

/-- A token with first ≠ 0 is an encoded run. -/
theorem classify_encoded (r : Rle) {first : Byte} (second : Byte) (h : first ≠ 0) :
    classify r first second = encodedRun r first second := by
  rw [classify, if_neg h]

theorem classify_eol (r : Rle) : classify r 0 0 = .eol := rfl

theorem classify_eob (r : Rle) : classify r 0 1 = .eob := rfl

theorem classify_delta (r : Rle) : classify r 0 2 = .delta := rfl

/-- A byte that is none of 0, 1 and 2 is at least 3. -/
theorem three_le_of_ne {b : Byte} (h0 : b ≠ 0) (h1 : b ≠ 1) (h2 : b ≠ 2) : 3 ≤ b.toNat := by
  have n0 : b.toNat ≠ 0 := fun h => h0 (BitVec.eq_of_toNat_eq h)
  have n1 : b.toNat ≠ 1 := fun h => h1 (BitVec.eq_of_toNat_eq h)
  have n2 : b.toNat ≠ 2 := fun h => h2 (BitVec.eq_of_toNat_eq h)
  omega

theorem highNibble_append (p q : BitVec 4) : (p ++ q : BitVec 8).extractLsb' 4 4 = p := by
  revert p q; decide

theorem lowNibble_append (p q : BitVec 4) : (p ++ q : BitVec 8).extractLsb' 0 4 = q := by
  revert p q; decide

theorem append_nibbles (b : Byte) : (b.extractLsb' 4 4 ++ b.extractLsb' 0 4 : BitVec 8) = b := by
  revert b; decide

end Sys2Proof
end

