-- ==== Sys2Proof/Laws/Memory.lean ====
section
/-! SUPPORT. The laws of a memory: a read after a write, and that every operation keeps the canonical form. -/

namespace Sys2Proof.Machine

@[simp] theorem Memory.read_nil (a : Nat) : Memory.read [] a = none := rfl

@[simp] theorem Memory.wf_nil : Memory.wf [] := List.Pairwise.nil

theorem Memory.read_write (m : Memory) (a b : Nat) (v : Byte) :
    (m.write a v).read b = if b = a then some v else m.read b := by
  induction m with
  | nil => simp [Memory.write, Memory.read, eq_comm]
  | cons x rest ih =>
    obtain ⟨k, w⟩ := x
    rcases lt_trichotomy a k with hlt | rfl | hgt
    · rw [Memory.write, if_pos hlt, Memory.read]
      by_cases hb : b = a
      · rw [if_pos hb, if_pos hb.symm]
      · rw [if_neg hb, if_neg (Ne.symm hb)]
    · rw [Memory.write, if_neg (lt_irrefl a), if_pos rfl, Memory.read, Memory.read]
      by_cases hb : b = a
      · rw [if_pos hb, if_pos hb.symm]
      · rw [if_neg hb, if_neg (Ne.symm hb), if_neg (Ne.symm hb)]
    · rw [Memory.write, if_neg (by omega), if_neg (by omega), Memory.read, Memory.read, ih]
      by_cases hb : k = b
      · rw [if_pos hb, if_pos hb, if_neg (by omega)]
      · rw [if_neg hb, if_neg hb]

@[simp] theorem Memory.read_write_same (m : Memory) (a : Nat) (v : Byte) : (m.write a v).read a = some v := by
  simp [Memory.read_write]

theorem Memory.read_write_other (m : Memory) {a b : Nat} (v : Byte) (h : b ≠ a) : (m.write a v).read b = m.read b := by
  simp [Memory.read_write, h]

/-- The addresses of a written memory are the old ones and the one written. -/
theorem Memory.mem_write (m : Memory) (a : Nat) (v : Byte) {x : Host.Cell} (h : x ∈ m.write a v) : x = (a, v) ∨ x ∈ m := by
  induction m with
  | nil => simpa [Memory.write] using h
  | cons y rest ih =>
    obtain ⟨k, w⟩ := y
    simp only [Memory.write] at h
    split at h
    · simpa using h
    · split at h
      · simp only [List.mem_cons] at h ⊢; tauto
      · simp only [List.mem_cons] at h ⊢
        rcases h with h | h
        · exact .inr (.inl h)
        · exact (ih h).imp id .inr

theorem Memory.write_wf (m : Memory) (a : Nat) (v : Byte) (h : m.wf) : (m.write a v).wf := by
  induction m with
  | nil => simp [Memory.write, Memory.wf]
  | cons y rest ih =>
    obtain ⟨k, w⟩ := y
    obtain ⟨hk, hr⟩ := List.pairwise_cons.mp h
    simp only [Memory.write]
    split
    · refine List.pairwise_cons.mpr ⟨?_, h⟩
      intro x hx
      rcases List.mem_cons.mp hx with rfl | hx
      · assumption
      · have := hk x hx; simp only at this ⊢; omega
    · split
      · subst_vars; exact List.pairwise_cons.mpr ⟨hk, hr⟩
      · refine List.pairwise_cons.mpr ⟨?_, ih hr⟩
        intro x hx
        rcases Memory.mem_write rest a v hx with rfl | hx
        · simp only; omega
        · exact hk x hx

theorem Memory.ofCells_wf (l : List Host.Cell) : (Memory.ofCells l).wf := by
  induction l with
  | nil => simp [Memory.ofCells]
  | cons x rest ih => exact Memory.write_wf _ _ _ ih

theorem Memory.writeFrom_wf (f : Nat → Byte) (base n c : Nat) (m : Memory) (h : m.wf) :
    (Memory.writeFrom f base n c m).wf := by
  induction n generalizing c m with
  | zero => exact h
  | succ n ih => exact ih _ _ (Memory.write_wf _ _ _ h)

/-- Everything a block write does: the cells `base + c` to `base + c + n - 1` hold `f`, every other cell is unchanged. -/
theorem Memory.read_writeFrom (f : Nat → Byte) (base n c : Nat) (m : Memory) (a : Nat) :
    (Memory.writeFrom f base n c m).read a = if base + c ≤ a ∧ a < base + c + n then some (f (a - base)) else m.read a := by
  induction n generalizing c m with
  | zero => simp only [Memory.writeFrom]; rw [if_neg (by omega)]
  | succ n ih =>
    rw [Memory.writeFrom, ih, Memory.read_write]
    by_cases ha : a = base + c
    · subst ha
      rw [if_neg (by omega), if_pos rfl, if_pos (by omega)]
      congr 2; omega
    · simp only [if_neg ha]
      by_cases hb : base + (c + 1) ≤ a ∧ a < base + (c + 1) + n
      · rw [if_pos hb, if_pos (by omega)]
      · rw [if_neg hb, if_neg (by omega)]

end Sys2Proof.Machine
end

