-- ==== Sys2Proof/Laws/State.lean ====
section
/-! SUPPORT. Beside State: what each named update of the state makes of each field. -/

namespace Sys2Proof.Machine

/-! ## forgetWorking -/

@[simp] theorem forgetWorking_phase (s : State) : (forgetWorking s).phase = s.phase := rfl
@[simp] theorem forgetWorking_ctrl (s : State) : (forgetWorking s).ctrl = s.ctrl := rfl
@[simp] theorem forgetWorking_mode (s : State) : (forgetWorking s).mode = s.mode := rfl
@[simp] theorem forgetWorking_width (s : State) : (forgetWorking s).width = s.width := rfl
@[simp] theorem forgetWorking_height (s : State) : (forgetWorking s).height = s.height := rfl
@[simp] theorem forgetWorking_dataOffset (s : State) : (forgetWorking s).dataOffset = s.dataOffset := rfl
@[simp] theorem forgetWorking_modeWritten (s : State) : (forgetWorking s).modeWritten = s.modeWritten := rfl
@[simp] theorem forgetWorking_widthWritten (s : State) : (forgetWorking s).widthWritten = s.widthWritten := rfl
@[simp] theorem forgetWorking_heightWritten (s : State) : (forgetWorking s).heightWritten = s.heightWritten := rfl
@[simp] theorem forgetWorking_dataOffsetWritten (s : State) : (forgetWorking s).dataOffsetWritten = s.dataOffsetWritten := rfl
@[simp] theorem forgetWorking_errKind (s : State) : (forgetWorking s).errKind = s.errKind := rfl
@[simp] theorem forgetWorking_errOffset (s : State) : (forgetWorking s).errOffset = s.errOffset := rfl
@[simp] theorem forgetWorking_cur (s : State) : (forgetWorking s).cur = Config.freeCur s.fresh := rfl
@[simp] theorem forgetWorking_row (s : State) : (forgetWorking s).row = Config.freeRow s.fresh := rfl
@[simp] theorem forgetWorking_len (s : State) : (forgetWorking s).len = Config.freeLen s.fresh := rfl
@[simp] theorem forgetWorking_sub (s : State) : (forgetWorking s).sub = (if Config.freeSub s.fresh then .pad else .pixels) := rfl
@[simp] theorem forgetWorking_padcnt (s : State) : (forgetWorking s).padcnt = Config.freePadcnt s.fresh := rfl
@[simp] theorem forgetWorking_rowbuf (s : State) : (forgetWorking s).rowbuf = s.rowbuf := rfl
@[simp] theorem forgetWorking_grid (s : State) : (forgetWorking s).grid = s.grid := rfl
@[simp] theorem forgetWorking_stream (s : State) : (forgetWorking s).stream = s.stream := rfl
@[simp] theorem forgetWorking_maxWidth (s : State) : (forgetWorking s).maxWidth = s.maxWidth := rfl
@[simp] theorem forgetWorking_maxHeight (s : State) : (forgetWorking s).maxHeight = s.maxHeight := rfl
@[simp] theorem forgetWorking_inbox (s : State) : (forgetWorking s).inbox = s.inbox := rfl
@[simp] theorem forgetWorking_answer (s : State) : (forgetWorking s).answer = s.answer := rfl
@[simp] theorem forgetWorking_fresh (s : State) : (forgetWorking s).fresh = s.fresh + 1 := rfl

/-! ## raise (R160) -/

@[simp] theorem raise_phase (k : ErrKind) (off : Nat) (s : State) : (raise k off s).phase = .fault := rfl
@[simp] theorem raise_ctrl (k : ErrKind) (off : Nat) (s : State) : (raise k off s).ctrl = s.ctrl := rfl
@[simp] theorem raise_mode (k : ErrKind) (off : Nat) (s : State) : (raise k off s).mode = s.mode := rfl
@[simp] theorem raise_width (k : ErrKind) (off : Nat) (s : State) : (raise k off s).width = s.width := rfl
@[simp] theorem raise_height (k : ErrKind) (off : Nat) (s : State) : (raise k off s).height = s.height := rfl
@[simp] theorem raise_dataOffset (k : ErrKind) (off : Nat) (s : State) : (raise k off s).dataOffset = s.dataOffset := rfl
@[simp] theorem raise_modeWritten (k : ErrKind) (off : Nat) (s : State) : (raise k off s).modeWritten = s.modeWritten := rfl
@[simp] theorem raise_widthWritten (k : ErrKind) (off : Nat) (s : State) : (raise k off s).widthWritten = s.widthWritten := rfl
@[simp] theorem raise_heightWritten (k : ErrKind) (off : Nat) (s : State) : (raise k off s).heightWritten = s.heightWritten := rfl
@[simp] theorem raise_dataOffsetWritten (k : ErrKind) (off : Nat) (s : State) : (raise k off s).dataOffsetWritten = s.dataOffsetWritten := rfl
@[simp] theorem raise_errKind (k : ErrKind) (off : Nat) (s : State) : (raise k off s).errKind = k := rfl
@[simp] theorem raise_errOffset (k : ErrKind) (off : Nat) (s : State) : (raise k off s).errOffset = off := rfl
@[simp] theorem raise_cur (k : ErrKind) (off : Nat) (s : State) : (raise k off s).cur = Config.freeCur s.fresh := rfl
@[simp] theorem raise_row (k : ErrKind) (off : Nat) (s : State) : (raise k off s).row = Config.freeRow s.fresh := rfl
@[simp] theorem raise_len (k : ErrKind) (off : Nat) (s : State) : (raise k off s).len = Config.freeLen s.fresh := rfl
@[simp] theorem raise_sub (k : ErrKind) (off : Nat) (s : State) : (raise k off s).sub = (if Config.freeSub s.fresh then .pad else .pixels) := rfl
@[simp] theorem raise_padcnt (k : ErrKind) (off : Nat) (s : State) : (raise k off s).padcnt = Config.freePadcnt s.fresh := rfl
@[simp] theorem raise_rowbuf (k : ErrKind) (off : Nat) (s : State) : (raise k off s).rowbuf = Memory.ofCells (Config.freeRowbuf s.fresh) := rfl
@[simp] theorem raise_grid (k : ErrKind) (off : Nat) (s : State) : (raise k off s).grid = Memory.ofCells (Config.freeGrid s.fresh) := rfl
@[simp] theorem raise_stream (k : ErrKind) (off : Nat) (s : State) : (raise k off s).stream = s.stream := rfl
@[simp] theorem raise_maxWidth (k : ErrKind) (off : Nat) (s : State) : (raise k off s).maxWidth = s.maxWidth := rfl
@[simp] theorem raise_maxHeight (k : ErrKind) (off : Nat) (s : State) : (raise k off s).maxHeight = s.maxHeight := rfl
@[simp] theorem raise_inbox (k : ErrKind) (off : Nat) (s : State) : (raise k off s).inbox = s.inbox := rfl
@[simp] theorem raise_answer (k : ErrKind) (off : Nat) (s : State) : (raise k off s).answer = s.answer := rfl
@[simp] theorem raise_fresh (k : ErrKind) (off : Nat) (s : State) : (raise k off s).fresh = s.fresh + 1 := rfl

/-! ## emit (R34) -/

@[simp] theorem emit_phase (v : Byte) (s : State) : (emit v s).phase = s.phase := rfl
@[simp] theorem emit_ctrl (v : Byte) (s : State) : (emit v s).ctrl = s.ctrl := rfl
@[simp] theorem emit_mode (v : Byte) (s : State) : (emit v s).mode = s.mode := rfl
@[simp] theorem emit_width (v : Byte) (s : State) : (emit v s).width = s.width := rfl
@[simp] theorem emit_height (v : Byte) (s : State) : (emit v s).height = s.height := rfl
@[simp] theorem emit_dataOffset (v : Byte) (s : State) : (emit v s).dataOffset = s.dataOffset := rfl
@[simp] theorem emit_modeWritten (v : Byte) (s : State) : (emit v s).modeWritten = s.modeWritten := rfl
@[simp] theorem emit_widthWritten (v : Byte) (s : State) : (emit v s).widthWritten = s.widthWritten := rfl
@[simp] theorem emit_heightWritten (v : Byte) (s : State) : (emit v s).heightWritten = s.heightWritten := rfl
@[simp] theorem emit_dataOffsetWritten (v : Byte) (s : State) : (emit v s).dataOffsetWritten = s.dataOffsetWritten := rfl
@[simp] theorem emit_errKind (v : Byte) (s : State) : (emit v s).errKind = s.errKind := rfl
@[simp] theorem emit_errOffset (v : Byte) (s : State) : (emit v s).errOffset = s.errOffset := rfl
@[simp] theorem emit_cur (v : Byte) (s : State) : (emit v s).cur = s.cur := rfl
@[simp] theorem emit_row (v : Byte) (s : State) : (emit v s).row = s.row := rfl
@[simp] theorem emit_len (v : Byte) (s : State) : (emit v s).len = s.len + 1 := rfl
@[simp] theorem emit_sub (v : Byte) (s : State) : (emit v s).sub = s.sub := rfl
@[simp] theorem emit_padcnt (v : Byte) (s : State) : (emit v s).padcnt = s.padcnt := rfl
@[simp] theorem emit_rowbuf (v : Byte) (s : State) : (emit v s).rowbuf = if s.len < s.width then s.rowbuf.write s.len.toNat v else s.rowbuf := rfl
@[simp] theorem emit_grid (v : Byte) (s : State) : (emit v s).grid = s.grid := rfl
@[simp] theorem emit_stream (v : Byte) (s : State) : (emit v s).stream = s.stream := rfl
@[simp] theorem emit_maxWidth (v : Byte) (s : State) : (emit v s).maxWidth = s.maxWidth := rfl
@[simp] theorem emit_maxHeight (v : Byte) (s : State) : (emit v s).maxHeight = s.maxHeight := rfl
@[simp] theorem emit_inbox (v : Byte) (s : State) : (emit v s).inbox = s.inbox := rfl
@[simp] theorem emit_answer (v : Byte) (s : State) : (emit v s).answer = s.answer := rfl
@[simp] theorem emit_fresh (v : Byte) (s : State) : (emit v s).fresh = s.fresh := rfl

/-! ## fillRow (R121) -/

@[simp] theorem fillRow_phase (s : State) : (fillRow s).phase = s.phase := rfl
@[simp] theorem fillRow_ctrl (s : State) : (fillRow s).ctrl = s.ctrl := rfl
@[simp] theorem fillRow_mode (s : State) : (fillRow s).mode = s.mode := rfl
@[simp] theorem fillRow_width (s : State) : (fillRow s).width = s.width := rfl
@[simp] theorem fillRow_height (s : State) : (fillRow s).height = s.height := rfl
@[simp] theorem fillRow_dataOffset (s : State) : (fillRow s).dataOffset = s.dataOffset := rfl
@[simp] theorem fillRow_modeWritten (s : State) : (fillRow s).modeWritten = s.modeWritten := rfl
@[simp] theorem fillRow_widthWritten (s : State) : (fillRow s).widthWritten = s.widthWritten := rfl
@[simp] theorem fillRow_heightWritten (s : State) : (fillRow s).heightWritten = s.heightWritten := rfl
@[simp] theorem fillRow_dataOffsetWritten (s : State) : (fillRow s).dataOffsetWritten = s.dataOffsetWritten := rfl
@[simp] theorem fillRow_errKind (s : State) : (fillRow s).errKind = s.errKind := rfl
@[simp] theorem fillRow_errOffset (s : State) : (fillRow s).errOffset = s.errOffset := rfl
@[simp] theorem fillRow_cur (s : State) : (fillRow s).cur = s.cur := rfl
@[simp] theorem fillRow_row (s : State) : (fillRow s).row = s.row := rfl
@[simp] theorem fillRow_len (s : State) : (fillRow s).len = s.len := rfl
@[simp] theorem fillRow_sub (s : State) : (fillRow s).sub = s.sub := rfl
@[simp] theorem fillRow_padcnt (s : State) : (fillRow s).padcnt = s.padcnt := rfl
@[simp] theorem fillRow_rowbuf (s : State) : (fillRow s).rowbuf = Memory.writeFrom (fun _ => Config.fillIndex) 0 (s.width.toNat - s.len.toNat) s.len.toNat s.rowbuf := rfl
@[simp] theorem fillRow_grid (s : State) : (fillRow s).grid = s.grid := rfl
@[simp] theorem fillRow_stream (s : State) : (fillRow s).stream = s.stream := rfl
@[simp] theorem fillRow_maxWidth (s : State) : (fillRow s).maxWidth = s.maxWidth := rfl
@[simp] theorem fillRow_maxHeight (s : State) : (fillRow s).maxHeight = s.maxHeight := rfl
@[simp] theorem fillRow_inbox (s : State) : (fillRow s).inbox = s.inbox := rfl
@[simp] theorem fillRow_answer (s : State) : (fillRow s).answer = s.answer := rfl
@[simp] theorem fillRow_fresh (s : State) : (fillRow s).fresh = s.fresh := rfl

/-! ## commitRow (R93) -/

@[simp] theorem commitRow_phase (s : State) : (commitRow s).phase = s.phase := rfl
@[simp] theorem commitRow_ctrl (s : State) : (commitRow s).ctrl = s.ctrl := rfl
@[simp] theorem commitRow_mode (s : State) : (commitRow s).mode = s.mode := rfl
@[simp] theorem commitRow_width (s : State) : (commitRow s).width = s.width := rfl
@[simp] theorem commitRow_height (s : State) : (commitRow s).height = s.height := rfl
@[simp] theorem commitRow_dataOffset (s : State) : (commitRow s).dataOffset = s.dataOffset := rfl
@[simp] theorem commitRow_modeWritten (s : State) : (commitRow s).modeWritten = s.modeWritten := rfl
@[simp] theorem commitRow_widthWritten (s : State) : (commitRow s).widthWritten = s.widthWritten := rfl
@[simp] theorem commitRow_heightWritten (s : State) : (commitRow s).heightWritten = s.heightWritten := rfl
@[simp] theorem commitRow_dataOffsetWritten (s : State) : (commitRow s).dataOffsetWritten = s.dataOffsetWritten := rfl
@[simp] theorem commitRow_errKind (s : State) : (commitRow s).errKind = s.errKind := rfl
@[simp] theorem commitRow_errOffset (s : State) : (commitRow s).errOffset = s.errOffset := rfl
@[simp] theorem commitRow_cur (s : State) : (commitRow s).cur = s.cur := rfl
@[simp] theorem commitRow_row (s : State) : (commitRow s).row = s.row + 1 := rfl
@[simp] theorem commitRow_len (s : State) : (commitRow s).len = 0 := rfl
@[simp] theorem commitRow_sub (s : State) : (commitRow s).sub = .pixels := rfl
@[simp] theorem commitRow_padcnt (s : State) : (commitRow s).padcnt = 0 := rfl
@[simp] theorem commitRow_rowbuf (s : State) : (commitRow s).rowbuf = [] := rfl
@[simp] theorem commitRow_grid (s : State) : (commitRow s).grid = Memory.writeFrom (fun c => (s.rowbuf.read c).getD (Config.freeCell s.fresh c)) (gridBase s) s.width.toNat 0 s.grid := rfl
@[simp] theorem commitRow_stream (s : State) : (commitRow s).stream = s.stream := rfl
@[simp] theorem commitRow_maxWidth (s : State) : (commitRow s).maxWidth = s.maxWidth := rfl
@[simp] theorem commitRow_maxHeight (s : State) : (commitRow s).maxHeight = s.maxHeight := rfl
@[simp] theorem commitRow_inbox (s : State) : (commitRow s).inbox = s.inbox := rfl
@[simp] theorem commitRow_answer (s : State) : (commitRow s).answer = s.answer := rfl
@[simp] theorem commitRow_fresh (s : State) : (commitRow s).fresh = s.fresh + 1 := rfl

end Sys2Proof.Machine
end

