-- ==== Sys2Proof/Laws/Ops.lean ====
section
/-! SUPPORT. One lemma per shared operation that says everything it can do. -/

namespace Sys2Proof.Machine

/-! ## Frames -/

@[simp] theorem KeepsConfig.refl (s : State) : KeepsConfig s s := by constructor <;> rfl

theorem KeepsConfig.trans {s t u : State} (h : KeepsConfig s t) (k : KeepsConfig t u) : KeepsConfig s u := by
  constructor
  · exact k.mode.trans h.mode
  · exact k.width.trans h.width
  · exact k.height.trans h.height
  · exact k.dataOffset.trans h.dataOffset
  · exact k.modeWritten.trans h.modeWritten
  · exact k.widthWritten.trans h.widthWritten
  · exact k.heightWritten.trans h.heightWritten
  · exact k.dataOffsetWritten.trans h.dataOffsetWritten
  · exact k.maxWidth.trans h.maxWidth
  · exact k.maxHeight.trans h.maxHeight
  · exact k.stream.trans h.stream
  · exact k.ctrl.trans h.ctrl
  · exact k.inbox.trans h.inbox
  · exact k.answer.trans h.answer

theorem FaultedWith.of_keeps {k : ErrKind} {off : Nat} {s t u : State} (h : KeepsConfig s t) (f : FaultedWith k off t u) :
    FaultedWith k off s u :=
  ⟨f.phase, f.errKind, f.errOffset, h.trans f.keeps⟩

/-! ## raise (R160) -/

theorem raise_keepsConfig (k : ErrKind) (off : Nat) (s : State) : KeepsConfig s (raise k off s) := by constructor <;> rfl

theorem raise_faultedWith (k : ErrKind) (off : Nat) (s : State) : FaultedWith k off s (raise k off s) :=
  ⟨rfl, rfl, rfl, raise_keepsConfig k off s⟩

theorem raise_rowbuf_wf (k : ErrKind) (off : Nat) (s : State) : (raise k off s).rowbuf.wf := Memory.ofCells_wf _

theorem raise_grid_wf (k : ErrKind) (off : Nat) (s : State) : (raise k off s).grid.wf := Memory.ofCells_wf _

/-! ## Fetch (R53) -/

theorem fetch_go (k : ErrKind) {s : State} {b : Byte} (h : s.stream[s.cur]? = some b) :
    fetch k s = .go b { s with cur := s.cur + 1 } := by
  simp only [fetch, memRead, h]

theorem fetch_end (k : ErrKind) {s : State} (h : s.stream.length ≤ s.cur) : fetch k s = .raised (raise k s.cur s) := by
  simp only [fetch, memRead, List.getElem?_eq_none h]

theorem fetch_of_lt (k : ErrKind) {s : State} (h : s.cur < s.stream.length) :
    fetch k s = .go s.stream[s.cur] { s with cur := s.cur + 1 } :=
  fetch_go k (List.getElem?_eq_getElem h)

/-- The token fetch (R73) when both bytes are there. -/
theorem fetchToken_go {s : State} (h : s.cur + 2 ≤ s.stream.length) : fetchToken s = .go s.cur { s with cur := s.cur + 2 } := by
  have h1 : s.cur < s.stream.length := by omega
  have h2 : s.cur + 1 < s.stream.length := by omega
  rw [fetchToken, fetch_of_lt _ h1]
  simp only
  rw [fetch_of_lt _ (s := { s with cur := s.cur + 1 }) h2]

/-- The token fetch when a byte is missing: a truncation at the first missing offset (R73, R161). -/
theorem fetchToken_end {s : State} (h : s.stream.length < s.cur + 2) :
    ∃ t, fetchToken s = .raised t ∧ FaultedWith .truncatedRleStream (max s.cur s.stream.length) s t ∧ t.rowbuf.wf ∧ t.grid.wf := by
  by_cases h1 : s.cur < s.stream.length
  · refine ⟨raise .truncatedRleStream (s.cur + 1) { s with cur := s.cur + 1 }, ?_, ?_, raise_rowbuf_wf _ _ _, raise_grid_wf _ _ _⟩
    · rw [fetchToken, fetch_of_lt _ h1]
      simp only
      rw [fetch_end _ (s := { s with cur := s.cur + 1 }) (by simp only; omega)]
    · rw [show max s.cur s.stream.length = s.cur + 1 by omega]
      exact ⟨rfl, rfl, rfl, by constructor <;> rfl⟩
  · refine ⟨raise .truncatedRleStream s.cur s, ?_, ?_, raise_rowbuf_wf _ _ _, raise_grid_wf _ _ _⟩
    · rw [fetchToken, fetch_end _ (by omega)]
    · rw [show max s.cur s.stream.length = s.cur by omega]
      exact raise_faultedWith _ _ _

/-! ## Pixels (R34, R104, R130, R140) -/

theorem Reg32.toNat_succ {x : Reg32} (h : x.toNat + 1 < 2 ^ 32) : (x + 1).toNat = x.toNat + 1 := by
  rw [BitVec.toNat_add, show (1 : Reg32).toNat = 1 from rfl]; omega

theorem Reg32.succ_add (x : Reg32) (n : Nat) : x + 1 + BitVec.ofNat 32 n = x + BitVec.ofNat 32 (n + 1) := by
  rw [Nat.add_comm n 1, BitVec.ofNat_add, BitVec.add_assoc]; rfl

theorem Reg32.toNat_add_ofNat {x : Reg32} {n : Nat} (h : x.toNat + n < 2 ^ 32) : (x + BitVec.ofNat 32 n).toNat = x.toNat + n := by
  rw [BitVec.toNat_add, BitVec.toNat_ofNat]; omega

theorem emit_rowbuf_wf (v : Byte) (s : State) (h : s.rowbuf.wf) : (emit v s).rowbuf.wf := by
  rw [emit_rowbuf]; split
  · exact Memory.write_wf _ _ _ h
  · exact h

/-- `Emit` writes the cell LEN while it is a column of the row, and no other (R34). -/
theorem emit_read (v : Byte) (s : State) (c : Nat) :
    (emit v s).rowbuf.read c = if c = s.len.toNat ∧ c < s.width.toNat then some v else s.rowbuf.read c := by
  rw [emit_rowbuf]
  by_cases hw : s.len < s.width
  · have : s.len.toNat < s.width.toNat := hw
    rw [if_pos hw, Memory.read_write]
    by_cases hc : c = s.len.toNat
    · rw [if_pos hc, if_pos ⟨hc, by omega⟩]
    · rw [if_neg hc, if_neg (fun h => hc h.1)]
  · have : ¬ s.len.toNat < s.width.toNat := hw
    rw [if_neg hw, if_neg (by omega)]

/-- Everything a run of `n` pixels does: LEN counts all of them, ROWBUF takes those below WIDTH, nothing else changes. -/
theorem emitRun_spec (f : Nat → Byte) (n i : Nat) (s : State) :
    ∃ rb : Memory, emitRun f n i s = { s with len := s.len + BitVec.ofNat 32 n, rowbuf := rb } ∧ (s.rowbuf.wf → rb.wf) ∧
      (s.len.toNat + n < 2 ^ 32 → ∀ c, rb.read c =
        if s.len.toNat ≤ c ∧ c < s.len.toNat + n ∧ c < s.width.toNat then some (f (i + (c - s.len.toNat))) else s.rowbuf.read c) := by
  induction n generalizing i s with
  | zero =>
    refine ⟨s.rowbuf, by simp [emitRun], id, fun _ c => ?_⟩
    rw [if_neg (by omega)]
  | succ n ih =>
    obtain ⟨rb, heq, hwf, hread⟩ := ih (i + 1) (emit (f i) s)
    refine ⟨rb, ?_, fun h => hwf (emit_rowbuf_wf _ _ h), fun hlen c => ?_⟩
    · rw [emitRun, heq, emit_len, Reg32.succ_add]; rfl
    · have hl : (emit (f i) s).len.toNat = s.len.toNat + 1 := Reg32.toNat_succ (by omega)
      rw [hread (by omega), hl, emit_width, emit_read]
      by_cases hc : c = s.len.toNat
      · subst hc
        rw [if_neg (by omega), Nat.sub_self, Nat.add_zero]
        exact if_congr (by omega) rfl rfl
      · rw [if_neg (c := c = s.len.toNat ∧ _) (by omega), show i + 1 + (c - (s.len.toNat + 1)) = if s.len.toNat + 1 ≤ c then i + (c - s.len.toNat) else i + 1 by
          split <;> omega]
        by_cases hr : s.len.toNat + 1 ≤ c
        · rw [if_pos hr]; exact if_congr (by omega) rfl rfl
        · rw [if_neg (by omega), if_neg (by omega)]

/-- Everything the fields of a packed byte do: as many as there is room for are stored and counted, the rest dropped (R104). -/
theorem unpackFields_spec (b : Nat) (B : Byte) (n j : Nat) (s : State) :
    ∃ rb : Memory, unpackFields b B n j s = { s with len := s.len + BitVec.ofNat 32 (min n (roomLeft s)), rowbuf := rb } ∧
      (s.rowbuf.wf → rb.wf) ∧
      ∀ c, rb.read c =
        if s.len.toNat ≤ c ∧ c < s.len.toNat + min n (roomLeft s) then some (field b (j + (c - s.len.toNat)) B) else s.rowbuf.read c := by
  induction n generalizing j s with
  | zero =>
    refine ⟨s.rowbuf, by simp [unpackFields], id, fun c => ?_⟩
    rw [if_neg (by omega)]
  | succ n ih =>
    have hw := s.width.isLt
    by_cases h : s.len < s.width
    · have hlt : s.len.toNat < s.width.toNat := h
      have hl : (emit (field b j B) s).len.toNat = s.len.toNat + 1 := Reg32.toNat_succ (by omega)
      have hroom : roomLeft (emit (field b j B) s) = roomLeft s - 1 := by
        rw [roomLeft, hl, emit_width, roomLeft]; omega
      have hmin : min (n + 1) (roomLeft s) = min n (roomLeft s - 1) + 1 := by rw [roomLeft]; omega
      obtain ⟨rb, heq, hwf, hread⟩ := ih (j + 1) (emit (field b j B) s)
      rw [hroom] at heq hread
      rw [hmin]
      refine ⟨rb, ?_, fun hh => hwf (emit_rowbuf_wf _ _ hh), fun c => ?_⟩
      · rw [unpackFields, if_pos h, heq, emit_len, Reg32.succ_add]; rfl
      · rw [hread, hl, emit_read]
        by_cases hc : c = s.len.toNat
        · subst hc
          rw [if_neg (by omega), if_pos ⟨rfl, hlt⟩, if_pos (by omega), Nat.sub_self, Nat.add_zero]
        · rw [if_neg (c := c = s.len.toNat ∧ _) (by omega)]
          by_cases hr : s.len.toNat + 1 ≤ c
          · rw [show j + 1 + (c - (s.len.toNat + 1)) = j + (c - s.len.toNat) by omega]
            exact if_congr (by omega) rfl rfl
          · rw [if_neg (by omega), if_neg (by omega)]
    · have hge : s.width.toNat ≤ s.len.toNat := Nat.le_of_not_lt h
      have hroom : roomLeft s = 0 := by rw [roomLeft]; omega
      obtain ⟨rb, heq, hwf, hread⟩ := ih (j + 1) s
      rw [hroom] at heq hread ⊢
      refine ⟨rb, ?_, hwf, fun c => ?_⟩
      · rw [unpackFields, if_neg h, heq]; simp
      · rw [hread]; simp only [Nat.min_zero, Nat.add_zero]; rw [if_neg (by omega), if_neg (by omega)]

/-! ## Literals (R131, R141) -/

/-- The literal bytes of ABS8 when all of them are there. -/
theorem literals8_go (n : Nat) (s : State) (h : s.cur + n ≤ s.stream.length) :
    ∃ rb : Memory, literals8 n s = .go () { s with cur := s.cur + n, len := s.len + BitVec.ofNat 32 n, rowbuf := rb } ∧
      (s.rowbuf.wf → rb.wf) ∧
      (s.len.toNat + n < 2 ^ 32 → ∀ c, rb.read c =
        if s.len.toNat ≤ c ∧ c < s.len.toNat + n ∧ c < s.width.toNat then s.stream[s.cur + (c - s.len.toNat)]? else s.rowbuf.read c) := by
  induction n generalizing s with
  | zero =>
    refine ⟨s.rowbuf, by simp [literals8], id, fun _ c => ?_⟩
    rw [if_neg (by omega)]
  | succ n ih =>
    have h0 : s.cur < s.stream.length := by omega
    let s1 : State := { s with cur := s.cur + 1 }
    let s2 : State := emit s.stream[s.cur] s1
    have h2 : s2.cur = s.cur + 1 := rfl
    obtain ⟨rb, heq, hwf, hread⟩ := ih s2 (by show s.cur + 1 + n ≤ s.stream.length; omega)
    refine ⟨rb, ?_, fun hh => hwf (emit_rowbuf_wf _ s1 hh), fun hlen c => ?_⟩
    · rw [literals8, fetch_of_lt _ h0]
      show literals8 n s2 = _
      rw [heq, h2, show s2.len = s.len + 1 from rfl, Reg32.succ_add, show s.cur + 1 + n = s.cur + (n + 1) by omega]; rfl
    · have hl : s2.len.toNat = s.len.toNat + 1 := Reg32.toNat_succ (x := s.len) (by omega)
      rw [hread (by rw [hl]; omega), hl, show s2.rowbuf.read c = _ from emit_read _ s1 c]
      show (if s.len.toNat + 1 ≤ c ∧ c < s.len.toNat + 1 + n ∧ c < s.width.toNat then s.stream[s.cur + 1 + (c - (s.len.toNat + 1))]?
        else if c = s.len.toNat ∧ c < s.width.toNat then some s.stream[s.cur] else s.rowbuf.read c) = _
      by_cases hc : c = s.len.toNat
      · subst hc
        rw [if_neg (by omega), Nat.sub_self, show s.cur + 0 = s.cur from rfl, List.getElem?_eq_getElem h0]
        exact if_congr (by omega) rfl rfl
      · rw [if_neg (c := c = s.len.toNat ∧ _) (by omega)]
        by_cases hr : s.len.toNat + 1 ≤ c
        · rw [show s.cur + 1 + (c - (s.len.toNat + 1)) = s.cur + (c - s.len.toNat) by omega]
          exact if_congr (by omega) rfl rfl
        · rw [if_neg (by omega), if_neg (by omega)]

/-- The literal bytes of ABS8 when the stream ends among them: a truncation at the first missing offset. -/
theorem literals8_end (n : Nat) (s : State) (h0 : s.cur ≤ s.stream.length) (h : s.stream.length < s.cur + n) :
    ∃ t, literals8 n s = .raised t ∧ FaultedWith .truncatedRleStream s.stream.length s t ∧ t.rowbuf.wf ∧ t.grid.wf := by
  induction n generalizing s with
  | zero => omega
  | succ n ih =>
    by_cases hlt : s.cur < s.stream.length
    · let s2 : State := emit s.stream[s.cur] { s with cur := s.cur + 1 }
      obtain ⟨t, heq, hf, hw⟩ := ih s2 (show s.cur + 1 ≤ s.stream.length by omega) (show s.stream.length < s.cur + 1 + n by omega)
      exact ⟨t, by rw [literals8, fetch_of_lt _ hlt]; exact heq, hf.of_keeps (by constructor <;> rfl), hw⟩
    · refine ⟨raise .truncatedRleStream s.cur s, by rw [literals8, fetch_end _ (by omega)], ?_, raise_rowbuf_wf _ _ _, raise_grid_wf _ _ _⟩
      rw [show s.stream.length = s.cur by omega]
      exact raise_faultedWith _ _ _

/-- The literal pixels of ABS4 from pixel `i` on when their bytes are there. `L` is the offset of the first literal byte of the run: the byte of
pixel `p` is at `L + p / 2`. -/
theorem literals4_go (n i L : Nat) (B : Byte) (s : State) (hcur : s.cur = L + (i + 1) / 2)
    (hB : i % 2 = 1 → s.stream[L + i / 2]? = some B) (h : L + (i + n + 1) / 2 ≤ s.stream.length) :
    ∃ rb : Memory, literals4 n i B s = .go () { s with cur := L + (i + n + 1) / 2, len := s.len + BitVec.ofNat 32 n, rowbuf := rb } ∧
      (s.rowbuf.wf → rb.wf) ∧
      (s.len.toNat + n < 2 ^ 32 → ∀ c, rb.read c =
        if s.len.toNat ≤ c ∧ c < s.len.toNat + n ∧ c < s.width.toNat then
          (s.stream[L + (i + (c - s.len.toNat)) / 2]?).map (field 4 ((i + (c - s.len.toNat)) % 2))
        else s.rowbuf.read c) := by
  induction n generalizing i B s with
  | zero =>
    refine ⟨s.rowbuf, ?_, id, fun _ c => ?_⟩
    · rw [literals4, Nat.add_zero, ← hcur]; simp
    · rw [if_neg (by omega)]
  | succ n ih =>
    have key : ∀ (s1 : State) (B1 : Byte) (hs1 : s1 = { s with cur := L + (i + 1 + 1) / 2 })
        (hB1 : s.stream[L + i / 2]? = some B1),
        ∃ rb : Memory, literals4 n (i + 1) B1 (emit (field 4 (i % 2) B1) s1) =
            .go () { s with cur := L + (i + (n + 1) + 1) / 2, len := s.len + BitVec.ofNat 32 (n + 1), rowbuf := rb } ∧
          (s.rowbuf.wf → rb.wf) ∧
          (s.len.toNat + (n + 1) < 2 ^ 32 → ∀ c, rb.read c =
            if s.len.toNat ≤ c ∧ c < s.len.toNat + (n + 1) ∧ c < s.width.toNat then
              (s.stream[L + (i + (c - s.len.toNat)) / 2]?).map (field 4 ((i + (c - s.len.toNat)) % 2))
            else s.rowbuf.read c) := by
      intro s1 B1 hs1 hB1
      obtain ⟨rb, heq, hwf, hread⟩ := ih (i + 1) B1 (emit (field 4 (i % 2) B1) s1) (by rw [hs1]; rfl)
        (fun hodd => by
          rw [hs1, show (i + 1) / 2 = i / 2 by omega]; exact hB1)
        (by rw [hs1]; show L + (i + 1 + n + 1) / 2 ≤ s.stream.length; rwa [show i + 1 + n + 1 = i + (n + 1) + 1 by omega])
      refine ⟨rb, ?_, fun hh => hwf (emit_rowbuf_wf _ _ (by rw [hs1]; exact hh)), fun hlen c => ?_⟩
      · rw [heq, hs1, emit_len, Reg32.succ_add, show i + 1 + n + 1 = i + (n + 1) + 1 by omega]; rfl
      · have hl : (emit (field 4 (i % 2) B1) s1).len.toNat = s.len.toNat + 1 := by
          rw [hs1]; exact Reg32.toNat_succ (x := s.len) (by omega)
        rw [hread (by rw [hl]; omega), hl, emit_read, hs1]
        simp only [emit_width, emit_stream]
        by_cases hc : c = s.len.toNat
        · subst hc
          rw [if_neg (by omega), Nat.sub_self, show i + 0 = i from rfl, hB1]
          exact if_congr (by omega) rfl rfl
        · rw [if_neg (c := c = s.len.toNat ∧ _) (by omega)]
          by_cases hr : s.len.toNat + 1 ≤ c
          · rw [show i + 1 + (c - (s.len.toNat + 1)) = i + (c - s.len.toNat) by omega]
            exact if_congr (by omega) rfl rfl
          · rw [if_neg (by omega), if_neg (by omega)]
    by_cases hi : i % 2 = 0
    · have hlt : s.cur < s.stream.length := by omega
      have hat : s.stream[L + i / 2]? = some s.stream[s.cur] := by
        rw [show L + i / 2 = s.cur by omega]; exact List.getElem?_eq_getElem hlt
      obtain ⟨rb, heq, hrest⟩ := key { s with cur := s.cur + 1 } s.stream[s.cur] (by rw [show s.cur + 1 = L + (i + 1 + 1) / 2 by omega]) hat
      refine ⟨rb, ?_, hrest⟩
      rw [literals4, if_pos hi, fetch_of_lt _ hlt, ← heq, hi]
    · have hi' : i % 2 = 1 := by omega
      obtain ⟨rb, heq, hrest⟩ := key s B (by rw [show L + (i + 1 + 1) / 2 = s.cur by omega]) (hB hi')
      refine ⟨rb, ?_, hrest⟩
      rw [literals4, if_neg hi, ← heq, hi']

/-- The literal pixels of ABS4 when the stream ends among their bytes. -/
theorem literals4_end (n i L : Nat) (B : Byte) (s : State) (hcur : s.cur = L + (i + 1) / 2) (h0 : s.cur ≤ s.stream.length)
    (h : s.stream.length < L + (i + n + 1) / 2) :
    ∃ t, literals4 n i B s = .raised t ∧ FaultedWith .truncatedRleStream s.stream.length s t ∧ t.rowbuf.wf ∧ t.grid.wf := by
  induction n generalizing i B s with
  | zero => rw [Nat.add_zero] at h; omega
  | succ n ih =>
    have h' : s.stream.length < L + (i + 1 + n + 1) / 2 := by rwa [show i + 1 + n + 1 = i + (n + 1) + 1 by omega]
    by_cases hi : i % 2 = 0
    · by_cases hlt : s.cur < s.stream.length
      · let s2 : State := emit (field 4 0 s.stream[s.cur]) { s with cur := s.cur + 1 }
        obtain ⟨t, heq, hf, hw⟩ := ih (i + 1) s.stream[s.cur] s2 (show s.cur + 1 = L + (i + 1 + 1) / 2 by omega)
          (show s.cur + 1 ≤ s.stream.length by omega) h'
        exact ⟨t, by rw [literals4, if_pos hi, fetch_of_lt _ hlt]; exact heq, hf.of_keeps (by constructor <;> rfl), hw⟩
      · refine ⟨raise .truncatedRleStream s.cur s, by rw [literals4, if_pos hi, fetch_end _ (by omega)], ?_, raise_rowbuf_wf _ _ _, raise_grid_wf _ _ _⟩
        rw [show s.stream.length = s.cur by omega]
        exact raise_faultedWith _ _ _
    · obtain ⟨t, heq, hf, hw⟩ := ih (i + 1) B (emit (field 4 1 B) s) (show s.cur = L + (i + 1 + 1) / 2 by omega) h0 h'
      exact ⟨t, by rw [literals4, if_neg hi]; exact heq, hf.of_keeps (by constructor <;> rfl), hw⟩

/-- The pad byte (R74) when it is there or not wanted. -/
theorem padByte_go (nb : Nat) (s : State) (h : s.cur + nb % 2 ≤ s.stream.length) :
    padByte nb s = .go () { s with cur := s.cur + nb % 2 } := by
  by_cases hb : nb % 2 = 1
  · rw [padByte, if_pos hb, fetch_of_lt _ (by omega), hb]
  · rw [padByte, if_neg hb, show nb % 2 = 0 by omega]; rfl

/-- The pad byte when it is wanted and the stream ends before it. -/
theorem padByte_end (nb : Nat) (s : State) (h0 : s.cur ≤ s.stream.length) (h : s.stream.length < s.cur + nb % 2) :
    ∃ t, padByte nb s = .raised t ∧ FaultedWith .truncatedRleStream s.stream.length s t ∧ t.rowbuf.wf ∧ t.grid.wf := by
  refine ⟨raise .truncatedRleStream s.cur s, ?_, ?_, raise_rowbuf_wf _ _ _, raise_grid_wf _ _ _⟩
  · rw [padByte, if_pos (by omega), fetch_end _ (by omega)]
  · rw [show s.stream.length = s.cur by omega]
    exact raise_faultedWith _ _ _

/-! ## Rows (R93, R121, R122) -/

theorem fillRow_rowbuf_wf (s : State) (h : s.rowbuf.wf) : (fillRow s).rowbuf.wf := Memory.writeFrom_wf _ _ _ _ _ h

/-- The fill writes columns LEN to WIDTH - 1 and no other cell. -/
theorem fillRow_read (s : State) (c : Nat) :
    (fillRow s).rowbuf.read c = if s.len.toNat ≤ c ∧ c < s.width.toNat then some Config.fillIndex else s.rowbuf.read c := by
  rw [fillRow_rowbuf, Memory.read_writeFrom]
  exact if_congr (by omega) rfl rfl

theorem commitRow_grid_wf (s : State) (h : s.grid.wf) : (commitRow s).grid.wf := Memory.writeFrom_wf _ _ _ _ _ h

/-- CommitRow writes exactly the WIDTH cells of grid row HEIGHT - 1 - ROW, column c with ROWBUF's cell c. -/
theorem commitRow_read (s : State) (a : Nat) :
    (commitRow s).grid.read a =
      if gridBase s ≤ a ∧ a < gridBase s + s.width.toNat then
        some ((s.rowbuf.read (a - gridBase s)).getD (Config.freeCell s.fresh (a - gridBase s)))
      else s.grid.read a := by
  rw [commitRow_grid, Memory.read_writeFrom]
  exact if_congr (by omega) rfl rfl

theorem commitRow_keepsConfig (s : State) : KeepsConfig s (commitRow s) := by constructor <;> rfl

theorem fillRow_keepsConfig (s : State) : KeepsConfig s (fillRow s) := by constructor <;> rfl

theorem commitRow_rowBegun (s : State) : RowBegun (commitRow s) := ⟨rfl, rfl, rfl, fun _ => rfl⟩

/-- The address of the row before is one row length higher, and the next row's is one row length lower. -/
theorem gridBase_eq (s : State) {k : Nat} (h : s.row.toNat + k + 1 = s.height.toNat) : gridBase s = k * s.width.toNat := by
  rw [gridBase, show s.height.toNat - 1 - s.row.toNat = k by omega]

/-- Rows filled from column 0: `k` rows from the beginning of one. Every one of their cells holds FILL_INDEX, every other cell is unchanged. -/
theorem fillRows_spec (k : Nat) (s : State) (hrow : s.row.toNat + k ≤ s.height.toNat) (hbegun : RowBegun s) (hwf : s.rowbuf.wf) :
    ∃ (rb g : Memory) (fr : Nat), fillRows k s = { s with row := s.row + BitVec.ofNat 32 k, rowbuf := rb, grid := g, fresh := fr } ∧
      SameCells [] rb ∧ rb.wf ∧ (s.grid.wf → g.wf) ∧
      ∀ a, g.read a =
        if (s.height.toNat - s.row.toNat - k) * s.width.toNat ≤ a ∧ a < (s.height.toNat - s.row.toNat) * s.width.toNat then some Config.fillIndex
        else s.grid.read a := by
  have hh := s.height.isLt
  induction k generalizing s with
  | zero =>
    refine ⟨s.rowbuf, s.grid, s.fresh, by simp [fillRows], hbegun.rowbuf, hwf, id, fun a => ?_⟩
    rw [Nat.sub_zero, if_neg (by omega)]
  | succ k ih =>
    let s1 : State := commitRow (fillRow s)
    have hr1 : s1.row.toNat = s.row.toNat + 1 := Reg32.toNat_succ (x := s.row) (by omega)
    obtain ⟨rb, g, fr, heq, hsame, hrbwf, hgwf, hread⟩ := ih s1 (by rw [hr1]; show _ ≤ s.height.toNat; omega)
      (commitRow_rowBegun _) Memory.wf_nil hh
    refine ⟨rb, g, fr, ?_, hsame, hrbwf, fun hg => hgwf (commitRow_grid_wf _ hg), fun a => ?_⟩
    · rw [fillRows]
      show fillRows k s1 = _
      rw [heq, show s1.row = s.row + 1 from rfl, Reg32.succ_add]
      obtain ⟨hl, hs, hp, -⟩ := hbegun
      show { s with row := _, len := 0, sub := .pixels, padcnt := 0, rowbuf := rb, grid := g, fresh := fr } = _
      rw [← hl, ← hs, ← hp]
    · have hbase : gridBase (fillRow s) = (s.height.toNat - s.row.toNat - 1) * s.width.toNat := by
        show (s.height.toNat - 1 - s.row.toNat) * s.width.toNat = _
        rw [show s.height.toNat - 1 - s.row.toNat = s.height.toNat - s.row.toNat - 1 by omega]
      have hsucc : (s.height.toNat - s.row.toNat - 1) * s.width.toNat + s.width.toNat = (s.height.toNat - s.row.toNat) * s.width.toNat := by
        rw [show s.height.toNat - s.row.toNat = s.height.toNat - s.row.toNat - 1 + 1 by omega, Nat.add_mul, Nat.one_mul, Nat.add_sub_cancel]
      have hle : (s.height.toNat - s.row.toNat - (k + 1)) * s.width.toNat ≤ (s.height.toNat - s.row.toNat - 1) * s.width.toNat :=
        Nat.mul_le_mul_right _ (by omega)
      rw [hread a, show s1.grid.read a = _ from commitRow_read (fillRow s) a, hr1, hbase]
      show (if (s.height.toNat - (s.row.toNat + 1) - k) * s.width.toNat ≤ a ∧ a < (s.height.toNat - (s.row.toNat + 1)) * s.width.toNat then _ else
        if (s.height.toNat - s.row.toNat - 1) * s.width.toNat ≤ a ∧ a < (s.height.toNat - s.row.toNat - 1) * s.width.toNat + s.width.toNat then _
        else s.grid.read a) = _
      rw [show s.height.toNat - (s.row.toNat + 1) - k = s.height.toNat - s.row.toNat - (k + 1) by omega,
        show s.height.toNat - (s.row.toNat + 1) = s.height.toNat - s.row.toNat - 1 by omega, hsucc]
      by_cases h1 : (s.height.toNat - s.row.toNat - (k + 1)) * s.width.toNat ≤ a ∧ a < (s.height.toNat - s.row.toNat - 1) * s.width.toNat
      · rw [if_pos h1, if_pos (by omega)]
      · rw [if_neg h1]
        by_cases h2 : (s.height.toNat - s.row.toNat - 1) * s.width.toNat ≤ a ∧ a < (s.height.toNat - s.row.toNat) * s.width.toNat
        · rw [if_pos h2, if_pos (by omega), fillRow_read, hbegun.len, if_pos ⟨Nat.zero_le _, by show _ < s.width.toNat; omega⟩]; rfl
        · rw [if_neg h2, if_neg (by omega)]

end Sys2Proof.Machine
end

