-- ==== Sys2Proof/Laws/Rows.lean ====
section
/-! SUPPORT. What committing rows does to GRID and ROW, said once for ROWEND, EOL and EOB (R93, R121, R122), and how a run of the machine is taken
apart into steps. -/

namespace Sys2Proof.Machine

/-- ROW counts one more without wrap where a row is still to be produced. -/
theorem row_succ {s : State} (h : s.row < s.height) : (s.row + 1).toNat = s.row.toNat + 1 := by
  have h1 : s.row.toNat < s.height.toNat := h
  have := s.height.isLt
  exact Reg32.toNat_succ (by omega)

/-- GRID rows HEIGHT - ROW and above are written; after a commit the row below them is too, and no other cell (R39 (c)). -/
theorem commitRow_grid_written {s : State} (hrow : s.row < s.height)
    (hg : ∀ a, (s.grid.read a).isSome ↔ (s.height.toNat - s.row.toNat) * s.width.toNat ≤ a ∧ a < s.height.toNat * s.width.toNat) :
    ∀ a, ((commitRow s).grid.read a).isSome ↔ (s.height.toNat - (s.row.toNat + 1)) * s.width.toNat ≤ a ∧ a < s.height.toNat * s.width.toNat := by
  intro a
  have hr : s.row.toNat < s.height.toNat := hrow
  have h1 : gridBase s = (s.height.toNat - (s.row.toNat + 1)) * s.width.toNat := by rw [gridBase]; congr 1; omega
  have h2 : gridBase s + s.width.toNat = (s.height.toNat - s.row.toNat) * s.width.toNat := by
    rw [h1, show s.height.toNat - s.row.toNat = s.height.toNat - (s.row.toNat + 1) + 1 by omega, Nat.add_mul, Nat.one_mul]
  have h3 : (s.height.toNat - s.row.toNat) * s.width.toNat ≤ s.height.toNat * s.width.toNat := Nat.mul_le_mul_right _ (by omega)
  rw [commitRow_read, h2, ← h1]
  by_cases ha : gridBase s ≤ a ∧ a < (s.height.toNat - s.row.toNat) * s.width.toNat
  · rw [if_pos ha]; simp; omega
  · rw [if_neg ha, hg a]; omega

/-- Everything EOB's fill does, where ROW < HEIGHT: the current row is filled and committed, and every cell below it becomes FILL_INDEX. -/
theorem endBitmap_eq {s : State} (hrow : s.row < s.height) : ∃ (rb g : Memory) (fr : Nat),
   endBitmap s = { commitRow (fillRow s) with row := s.height, rowbuf := rb, grid := g, fresh := fr, phase := .done } ∧ rb.wf ∧ (s.grid.wf → g.wf) ∧
   SameCells [] rb ∧ (∀ a, g.read a = if a < gridBase s then some 0 else (commitRow (fillRow s)).grid.read a) := by
  have hh := s.height.isLt
  have hrn : s.row.toNat < s.height.toNat := hrow
  let s2 : State := commitRow (fillRow s)
  have hr2 : s2.row.toNat = s.row.toNat + 1 := Reg32.toNat_succ (x := s.row) (by omega)
  obtain ⟨rb, g, fr, heq, hsame, hrbwf, hgwf, hread⟩ := fillRows_spec (s.height.toNat - s.row.toNat - 1) s2
    (by rw [hr2]; show _ ≤ s.height.toNat; omega) (commitRow_rowBegun _) Memory.wf_nil
  have hfill : fillRows (s.height.toNat - s.row.toNat) s = fillRows (s.height.toNat - s.row.toNat - 1) s2 := by
    conv_lhs => rw [show s.height.toNat - s.row.toNat = s.height.toNat - s.row.toNat - 1 + 1 by omega]
    rfl
  have hrow : s2.row + BitVec.ofNat 32 (s.height.toNat - s.row.toNat - 1) = s.height := by
    apply BitVec.eq_of_toNat_eq
    rw [Reg32.toNat_add_ofNat (by rw [hr2]; omega), hr2]; omega
  refine ⟨rb, g, fr, ?_, hrbwf, fun h => hgwf (commitRow_grid_wf _ h), hsame, fun a => ?_⟩
  · show { fillRows (s.height.toNat - s.row.toNat) s with phase := .done } = _
    rw [hfill, heq, hrow]
  · rw [hread a, hr2]
    show (if (s.height.toNat - (s.row.toNat + 1) - (s.height.toNat - s.row.toNat - 1)) * s.width.toNat ≤ a ∧ a < (s.height.toNat - (s.row.toNat + 1)) * s.width.toNat then _ else _) = _
    rw [show s.height.toNat - (s.row.toNat + 1) - (s.height.toNat - s.row.toNat - 1) = 0 by omega, show s.height.toNat - (s.row.toNat + 1) = s.height.toNat - 1 - s.row.toNat by omega, Nat.zero_mul]
    exact if_congr (by rw [gridBase]; omega) rfl rfl

/-- EOB's loop writes no configuration, no status and not CUR, in any state. -/
theorem fillRows_keeps (k : Nat) (s : State) : KeepsConfig s (fillRows k s) ∧ (fillRows k s).phase = s.phase ∧ (fillRows k s).errKind = s.errKind ∧ (fillRows k s).cur = s.cur := by
  induction k generalizing s with
  | zero => exact ⟨KeepsConfig.refl s, rfl, rfl, rfl⟩
  | succ k ih =>
    obtain ⟨h1, h2⟩ := ih (commitRow (fillRow s))
    exact ⟨KeepsConfig.trans (by constructor <;> rfl) h1, h2⟩

/-! ## Runs -/

theorem core_run_next {M : Host.Core} {k : Nat} {s t : M.State} (h : M.step s = .next t) : M.run (k + 1) s = M.run k t := by
  simp only [Host.Core.run, h]

/-- A run whose first step is known. -/
theorem run_step {k : Nat} {s t : State} (h : step s = .next t) : Host.Core.run Sys2Proof.core (k + 1) s = Host.Core.run Sys2Proof.core k t :=
  core_run_next (M := Sys2Proof.core) h

theorem core_run_add {M : Host.Core} {k j : Nat} {s t : M.State} (h : M.run k s = .next t) : M.run (k + j) s = M.run j t := by
  induction k generalizing s with
  | zero => simp only [Host.Core.run] at h; cases h; rw [Nat.zero_add]
  | succ k ih =>
    rw [show k + 1 + j = (k + j) + 1 by omega]
    simp only [Host.Core.run] at h ⊢
    cases hs : M.step s with
    | next u => rw [hs] at h; exact ih h
    | fault r => rw [hs] at h; cases h
    | refused r => rw [hs] at h; cases h

/-- A run in two parts. -/
theorem run_add {k j : Nat} {s t : State} (h : Sys2Proof.core.run k s = .next t) : Sys2Proof.core.run (k + j) s = Sys2Proof.core.run j t :=
  core_run_add (M := Sys2Proof.core) h

end Sys2Proof.Machine
end

