-- ==== Sys2Proof/Laws/Sequencer.lean ====
section
/-! SUPPORT. What the body of START and the selection can do, and what a step of a quiet state is. -/

namespace Sys2Proof.Machine

/-- A MODE value selects no engine exactly when it is 6 or 7 (R24). -/
theorem modeOf_eq_none {v : BitVec 3} : modeOf v = none ↔ 6 ≤ v.toNat := by
  revert v; decide

theorem modeOf_modeCode (m : Mode) : modeOf (modeCode m) = some m := by
  cases m <;> rfl

/-- START when a test fails (R90): a fault at DATA_OFFSET. -/
theorem startDecode_fault {s : State} {k : ErrKind} (h : startFault s = some k) :
    startDecode s = raise k s.dataOffset.toNat { s with cur := s.dataOffset.toNat, errKind := .none, errOffset := 0 } := by
  simp only [startDecode, h]

/-- START when every test passes (R90). -/
theorem startDecode_run {s : State} (h : startFault s = none) :
    startDecode s = { s with
      cur := s.dataOffset.toNat, errKind := .none, errOffset := 0, row := 0, len := 0, sub := .pixels, padcnt := 0,
      rowbuf := [], grid := [], phase := .run } := by
  simp only [startDecode, h]

/-- What START has tested when it begins a decode. -/
theorem startFault_eq_none {s : State} : startFault s = none ↔
    (modeOf s.mode).isSome = true ∧ s.height.msb = false ∧ s.width.msb = false ∧ s.width.toNat ≤ s.maxWidth ∧ s.height.toNat ≤ s.maxHeight := by
  unfold startFault
  cases modeOf s.mode <;> cases s.height.msb <;> cases s.width.msb <;> simp

/-- With no command and no host move pending a step is the decoder's turn. -/
theorem step_of_quiet {s : State} (h : Quiet s) : step s = decoderTurn s := by
  obtain ⟨h1, h2⟩ := h
  simp only [step, turn, h1, h2]

/-- In phase RUN the decoder's turn is one operation. -/
theorem decoderTurn_run {s : State} (h : s.phase = .run) : decoderTurn s = decoderOperation s := by
  simp only [decoderTurn, h]

/-- In any other phase it is nothing (R72, R202). -/
theorem decoderTurn_not_run {s : State} (h : s.phase ≠ .run) : decoderTurn s = .next s := by
  unfold decoderTurn
  split
  · contradiction
  all_goals rfl

/-- The selection of a row still to be produced, in a mode that selects an engine. -/
theorem select_of_running {m : Mode} {s : State} (h : Running m s) : select s = some (selectInRow m s) := by
  have hne : s.row ≠ s.height := by
    intro heq
    have hlt : s.row.toNat < s.height.toNat := h.row
    rw [heq] at hlt; omega
  simp only [select, imageComplete, beq_eq_false_iff_ne.mpr hne, h.mode, Bool.false_eq_true, if_false]

/-- An operation of the decoder, given the selection and what decodes at CUR. -/
theorem decoderOperation_decoded {s : State} {c : Context} {i : Instr} {rest : List Byte} (hs : select s = some c)
    (hd : decode c (s.stream.drop s.cur) = .ok (i, rest)) : decoderOperation s = exec i s := by
  simp only [decoderOperation, hs, hd]

end Sys2Proof.Machine
end

