-- ==== Sys2Proof/Laws/Step.lean ====
section
/-! SUPPORT. What one operation of the decoder can do, said once (`DecoderStep`), and what one step can do. Every invariant is a case analysis on these. -/

namespace Sys2Proof.Machine

/-- The kinds the block raises (R150). -/
def raisedKinds : List ErrKind :=
  [.truncatedRleStream, .invalidFormatCombination, .unsupportedRleEscape, .corruptRowLength, .unsupportedFormat, .truncatedPixelData]

/-- `t` came from `s` by a raise. -/
structure Raised (s t : State) : Prop where
  phase : t.phase = .fault
  kind : t.errKind ∈ raisedKinds
  config : KeepsConfig s t
  rowbuf_wf : t.rowbuf.wf
  grid_wf : t.grid.wf

/-- `n` pixels of at most `b` bits were added to the row, and CUR moved on to `c`; nothing else changed. -/
structure Grown (b n c : Nat) (s t : State) : Prop where
  eq : t = { s with cur := c, len := t.len, rowbuf := t.rowbuf }
  len : t.len.toNat = s.len.toNat + n
  fits : t.len.toNat ≤ s.width.toNat
  wf : s.rowbuf.wf → t.rowbuf.wf
  old : ∀ i, i < s.len.toNat ∨ s.len.toNat + n ≤ i → t.rowbuf.read i = s.rowbuf.read i
  new : ∀ i, s.len.toNat ≤ i → i < s.len.toNat + n → ∃ v : Byte, t.rowbuf.read i = some v ∧ v.toNat < 2 ^ b

/-- What an operation in phase RUN can do to a state with a legal WIDTH and LEN. -/
inductive DecoderStep (s : State) : State → Prop where
  | raised {t : State} (h : Raised s t) : DecoderStep s t
  | finish (hrow : s.row = s.height) : DecoderStep s { s with phase := .done }
  | rowend (m : Mode) (hm : modeOf s.mode = some m) (hrow : s.row < s.height)
      (hdone : (isPacked m = true ∧ s.sub = .pad ∧ s.padcnt = 0) ∨ (isPacked m = false ∧ s.width ≤ s.len)) : DecoderStep s (commitRow s)
  | padset (m : Mode) (hm : modeOf s.mode = some m) (hp : isPacked m = true) (hrow : s.row ≠ s.height) (hsub : s.sub = .pixels)
      (hlen : s.width ≤ s.len) :
      DecoderStep s { s with padcnt := BitVec.ofNat 2 (fillerCount (rowBytes (bitsPerPixel m) s.width)), sub := .pad }
  | padskip (m : Mode) (hm : modeOf s.mode = some m) (hp : isPacked m = true) (hrow : s.row ≠ s.height) (hsub : s.sub = .pad)
      (hpad : s.padcnt ≠ 0) (hcur : s.cur < s.stream.length) :
      DecoderStep s { s with cur := s.cur + 1, padcnt := s.padcnt - 1 }
  | unpack {t : State} (m : Mode) (hm : modeOf s.mode = some m) (hp : isPacked m = true) (hrow : s.row ≠ s.height) (hsub : s.sub = .pixels)
      (hlen : s.len < s.width) (hcur : s.cur < s.stream.length)
      (hg : Grown (bitsPerPixel m) (min (8 / bitsPerPixel m) (roomLeft s)) (s.cur + 1) s t) : DecoderStep s t
  | run {t : State} (r : Rle) (n c : Nat) (hm : modeOf s.mode = some (rleMode r)) (hrow : s.row ≠ s.height) (hlen : s.len < s.width)
      (hcur : s.cur + 2 ≤ c) (hc : c ≤ s.stream.length) (hg : Grown (bitsPerPixel (rleMode r)) n c s t) : DecoderStep s t
  | eol (r : Rle) (hm : modeOf s.mode = some (rleMode r)) (hrow : s.row < s.height) (hlen : s.len < s.width)
      (hcur : s.cur + 2 ≤ s.stream.length) (ht : TokenAt 0 0 s) : DecoderStep s (commitRow (fillRow { s with cur := s.cur + 2 }))
  | eob (r : Rle) (hm : modeOf s.mode = some (rleMode r)) (hrow : s.row < s.height) (hlen : s.len < s.width)
      (hcur : s.cur + 2 ≤ s.stream.length) (ht : TokenAt 0 1 s) : DecoderStep s (endBitmap { s with cur := s.cur + 2 })

theorem raise_raised {k : ErrKind} (hk : k ∈ raisedKinds) (off : Nat) {s s1 : State} (h : KeepsConfig s s1) : Raised s (raise k off s1) :=
  ⟨rfl, hk, h.trans (raise_keepsConfig _ _ _), raise_rowbuf_wf _ _ _, raise_grid_wf _ _ _⟩

theorem field_lt (b j : Nat) (B : Byte) (hb : b ≤ 8) : (field b j B).toNat < 2 ^ b := by
  have h1 := (B.extractLsb' (8 - (j + 1) * b) b).isLt
  have h2 : 2 ^ b ≤ 2 ^ 8 := Nat.pow_le_pow_right (by decide) hb
  rw [field, BitVec.toNat_setWidth, Nat.mod_eq_of_lt (Nat.lt_of_lt_of_le h1 h2)]
  exact h1

theorem alternate_lt (p q : BitVec 4) (i : Nat) : (alternate p q i).toNat < 2 ^ 4 := by
  have hp := p.isLt
  have hq := q.isLt
  rw [alternate]; split <;> rw [BitVec.toNat_setWidth, Nat.mod_eq_of_lt (by omega)] <;> assumption

/-- An unpack's next state: a truncation, or its pixels added. -/
theorem unpack_cases {b : Nat} {B : Byte} {s t : State} (hb : b ≤ 8) (h : unpack b B s = .next t) :
    Raised s t ∨ (s.cur < s.stream.length ∧ (s.len.toNat ≤ s.width.toNat → Grown b (min (8 / b) (roomLeft s)) (s.cur + 1) s t)) := by
  by_cases hc : s.cur < s.stream.length
  · obtain ⟨rb, heq, hwf, hread⟩ := unpackFields_spec b B (8 / b) 0 { s with cur := s.cur + 1 }
    rw [unpack, fetch_of_lt _ hc] at h
    simp only [Flow.andThen] at h
    rw [heq] at h
    cases h
    refine .inr ⟨hc, fun hl => ?_⟩
    have hw := s.width.isLt
    have hlen : (s.len + BitVec.ofNat 32 (min (8 / b) (roomLeft s))).toNat = s.len.toNat + min (8 / b) (roomLeft s) :=
      Reg32.toNat_add_ofNat (by rw [roomLeft]; omega)
    refine ⟨rfl, hlen, ?_, hwf, fun i hi => ?_, fun i h1 h2 => ?_⟩
    · show (s.len + BitVec.ofNat 32 (min (8 / b) (roomLeft s))).toNat ≤ _
      rw [hlen, roomLeft]; omega
    · show rb.read i = _
      rw [hread i, if_neg (by show ¬ (s.len.toNat ≤ i ∧ i < s.len.toNat + min (8 / b) (roomLeft s)); omega)]
    · refine ⟨_, (hread i).trans (if_pos ⟨h1, h2⟩), field_lt _ _ _ hb⟩
  · rw [unpack, fetch_end _ (by omega)] at h
    cases h
    exact .inl (raise_raised (by decide) _ (KeepsConfig.refl s))

theorem endRun_cases {t0 : Nat} {s t : State} (h : endRun t0 s = .next t) :
    t = raise .corruptRowLength t0 s ∨ (t = s ∧ s.len.toNat ≤ s.width.toNat) := by
  unfold endRun at h
  split at h
  · cases h; exact .inl rfl
  · rename_i ho
    cases h
    refine .inr ⟨rfl, ?_⟩
    simpa [rowOverrun, BitVec.lt_def] using ho

/-- The token fetch before an operation: it raises, or the rest runs with CUR two further. -/
theorem token_cases {k : Nat → State → Result} {s t : State} (h : (fetchToken s).andThen k = .next t) :
    Raised s t ∨ (s.cur + 2 ≤ s.stream.length ∧ k s.cur { s with cur := s.cur + 2 } = .next t) := by
  by_cases hc : s.cur + 2 ≤ s.stream.length
  · rw [fetchToken_go hc] at h
    exact .inr ⟨hc, h⟩
  · obtain ⟨u, heq, hf, hw⟩ := fetchToken_end (s := s) (by omega)
    rw [heq] at h
    cases h
    exact .inl ⟨hf.phase, by rw [hf.errKind]; decide, hf.keeps, hw.1, hw.2⟩

/-- An encoded run's next state: a fault, or its pixels added. -/
theorem encoded_cases {b : Nat} {f : Nat → Byte} {n : Byte} {s t : State} (hf : ∀ i, (f i).toNat < 2 ^ b) (hw : s.width.toNat < 2 ^ 31)
    (hl : s.len.toNat ≤ s.width.toNat)
    (h : ((fetchToken s).andThen fun t0 s1 => endRun t0 (emitRun f n.toNat 0 s1)) = .next t) :
    Raised s t ∨ (s.cur + 2 ≤ s.stream.length ∧ Grown b n.toNat (s.cur + 2) s t) := by
  rcases token_cases h with h | ⟨hc, h⟩
  · exact .inl h
  · obtain ⟨rb, heq, hwf, hread⟩ := emitRun_spec f n.toNat 0 { s with cur := s.cur + 2 }
    rw [heq] at h
    have hn := n.isLt
    have hlen : (s.len + BitVec.ofNat 32 n.toNat).toNat = s.len.toNat + n.toNat := Reg32.toNat_add_ofNat (by omega)
    rcases endRun_cases h with rfl | ⟨rfl, hfit⟩
    · exact .inl (raise_raised (by decide) _ (by constructor <;> rfl))
    · have hfit : (s.len + BitVec.ofNat 32 n.toNat).toNat ≤ s.width.toNat := hfit
      have hread := hread (by show s.len.toNat + n.toNat < _; omega)
      refine .inr ⟨hc, rfl, hlen, hfit, hwf, fun i hi => ?_, fun i h1 h2 => ?_⟩
      · exact (hread i).trans (if_neg (by show ¬ (s.len.toNat ≤ i ∧ i < s.len.toNat + n.toNat ∧ i < s.width.toNat); omega))
      · exact ⟨_, (hread i).trans (if_pos ⟨h1, h2, by show i < s.width.toNat; omega⟩), hf _⟩

/-- ABS8's next state. -/
theorem execAbs8_cases {n : Byte} {s t : State} (hw : s.width.toNat < 2 ^ 31) (hl : s.len.toNat ≤ s.width.toNat) (h : execAbs8 n s = .next t) :
    Raised s t ∨ (s.cur + (2 + n.toNat + n.toNat % 2) ≤ s.stream.length ∧ Grown 8 n.toNat (s.cur + (2 + n.toNat + n.toNat % 2)) s t) := by
  rcases token_cases h with h | ⟨hc, h⟩
  · exact .inl h
  have hn := n.isLt
  let s1 : State := { s with cur := s.cur + 2 }
  by_cases h1 : s.cur + 2 + n.toNat ≤ s.stream.length
  · obtain ⟨rb, heq, hwf, hread⟩ := literals8_go n.toNat s1 h1
    rw [heq] at h
    simp only [Flow.andThen] at h
    let s2 : State := { s1 with cur := s1.cur + n.toNat, len := s1.len + BitVec.ofNat 32 n.toNat, rowbuf := rb }
    by_cases h2 : s.cur + 2 + n.toNat + n.toNat % 2 ≤ s.stream.length
    · rw [padByte_go n.toNat s2 h2] at h
      have hlen : (s.len + BitVec.ofNat 32 n.toNat).toNat = s.len.toNat + n.toNat := Reg32.toNat_add_ofNat (by omega)
      rcases endRun_cases h with rfl | ⟨rfl, hfit⟩
      · exact .inl (raise_raised (by decide) _ (by constructor <;> rfl))
      · have hfit : (s.len + BitVec.ofNat 32 n.toNat).toNat ≤ s.width.toNat := hfit
        have hread := hread (by show s.len.toNat + n.toNat < _; omega)
        refine .inr ⟨by omega, ?_, hlen, hfit, hwf, fun i hi => ?_, fun i h3 h4 => ?_⟩
        · rw [show s.cur + (2 + n.toNat + n.toNat % 2) = s.cur + 2 + n.toNat + n.toNat % 2 by omega]
        · exact (hread i).trans (if_neg (by show ¬ (s.len.toNat ≤ i ∧ i < s.len.toNat + n.toNat ∧ i < s.width.toNat); omega))
        · have hlt : s.cur + 2 + (i - s.len.toNat) < s.stream.length := by omega
          refine ⟨s.stream[s.cur + 2 + (i - s.len.toNat)], ?_, BitVec.isLt _⟩
          refine (hread i).trans ((if_pos ⟨h3, h4, by show i < s.width.toNat; omega⟩).trans ?_)
          exact List.getElem?_eq_getElem hlt
    · obtain ⟨u, heq2, hf, hwf2⟩ := padByte_end n.toNat s2 h1 (by show s.stream.length < s.cur + 2 + n.toNat + n.toNat % 2; omega)
      rw [heq2] at h
      cases h
      exact .inl ⟨hf.phase, by rw [hf.errKind]; decide, KeepsConfig.trans (by constructor <;> rfl) hf.keeps, hwf2.1, hwf2.2⟩
  · obtain ⟨u, heq, hf, hwf⟩ := literals8_end n.toNat s1 hc (by show s.stream.length < s.cur + 2 + n.toNat; omega)
    rw [heq] at h
    cases h
    exact .inl ⟨hf.phase, by rw [hf.errKind]; decide, KeepsConfig.trans (by constructor <;> rfl) hf.keeps, hwf.1, hwf.2⟩

/-- ABS4's next state. -/
theorem execAbs4_cases {n : Byte} {s t : State} (hw : s.width.toNat < 2 ^ 31) (hl : s.len.toNat ≤ s.width.toNat) (h : execAbs4 n s = .next t) :
    Raised s t ∨ (s.cur + (2 + (n.toNat + 1) / 2 + (n.toNat + 1) / 2 % 2) ≤ s.stream.length ∧
      Grown 4 n.toNat (s.cur + (2 + (n.toNat + 1) / 2 + (n.toNat + 1) / 2 % 2)) s t) := by
  rcases token_cases h with h | ⟨hc, h⟩
  · exact .inl h
  have hn := n.isLt
  generalize hnb : (n.toNat + 1) / 2 = nb at h ⊢
  have hz : 0 + n.toNat + 1 = n.toNat + 1 := by omega
  let s1 : State := { s with cur := s.cur + 2 }
  by_cases h1 : s.cur + 2 + nb ≤ s.stream.length
  · obtain ⟨rb, heq, hwf, hread⟩ := literals4_go n.toNat 0 (s.cur + 2) 0 s1 rfl (fun h => absurd h (by decide)) (by rw [hz, hnb]; exact h1)
    rw [heq, hz, hnb] at h
    simp only [Flow.andThen] at h
    let s2 : State := { s1 with cur := s.cur + 2 + nb, len := s1.len + BitVec.ofNat 32 n.toNat, rowbuf := rb }
    by_cases h2 : s.cur + 2 + nb + nb % 2 ≤ s.stream.length
    · rw [padByte_go nb s2 h2] at h
      have hlen : (s.len + BitVec.ofNat 32 n.toNat).toNat = s.len.toNat + n.toNat := Reg32.toNat_add_ofNat (by omega)
      rcases endRun_cases h with rfl | ⟨rfl, hfit⟩
      · exact .inl (raise_raised (by decide) _ (by constructor <;> rfl))
      · have hfit : (s.len + BitVec.ofNat 32 n.toNat).toNat ≤ s.width.toNat := hfit
        have hread := hread (by show s.len.toNat + n.toNat < _; omega)
        refine .inr ⟨by omega, ?_, hlen, hfit, hwf, fun i hi => ?_, fun i h3 h4 => ?_⟩
        · rw [show s.cur + (2 + nb + nb % 2) = s.cur + 2 + nb + nb % 2 by omega]
        · exact (hread i).trans (if_neg (by show ¬ (s.len.toNat ≤ i ∧ i < s.len.toNat + n.toNat ∧ i < s.width.toNat); omega))
        · have hlt : s.cur + 2 + (0 + (i - s.len.toNat)) / 2 < s.stream.length := by omega
          refine ⟨field 4 ((0 + (i - s.len.toNat)) % 2) s.stream[s.cur + 2 + (0 + (i - s.len.toNat)) / 2], ?_, field_lt _ _ _ (by decide)⟩
          refine (hread i).trans ((if_pos ⟨h3, h4, by show i < s.width.toNat; omega⟩).trans ?_)
          show Option.map _ s.stream[s.cur + 2 + (0 + (i - s.len.toNat)) / 2]? = _
          rw [List.getElem?_eq_getElem hlt]; rfl
    · obtain ⟨u, heq2, hf, hwf2⟩ := padByte_end nb s2 h1 (by show s.stream.length < s.cur + 2 + nb + nb % 2; omega)
      rw [heq2] at h
      cases h
      exact .inl ⟨hf.phase, by rw [hf.errKind]; decide, KeepsConfig.trans (by constructor <;> rfl) hf.keeps, hwf2.1, hwf2.2⟩
  · obtain ⟨u, heq, hf, hwf⟩ := literals4_end n.toNat 0 (s.cur + 2) 0 s1 rfl hc (by rw [hz, hnb]; show s.stream.length < _; omega)
    rw [heq] at h
    cases h
    exact .inl ⟨hf.phase, by rw [hf.errKind]; decide, KeepsConfig.trans (by constructor <;> rfl) hf.keeps, hwf.1, hwf.2⟩

theorem rowInGrid_iff {s : State} : rowInGrid s = true ↔ s.row < s.height := by
  simp only [rowInGrid, decide_eq_true_eq]

theorem rowOpen_iff {s : State} : rowOpen s = true ↔ s.len < s.width := by
  simp only [rowOpen, decide_eq_true_eq]

theorem Reg32.not_lt {x y : Reg32} : ¬ x < y ↔ y ≤ x := by
  rw [BitVec.lt_def, BitVec.le_def]; omega

/-- What a token operation can do. -/
theorem token_step {r : Rle} {s t : State} (hm : modeOf s.mode = some (rleMode r)) (hrow : s.row ≠ s.height) (hopen : s.len < s.width)
    (hw : s.width.toNat < 2 ^ 31) (hl : s.len.toNat ≤ s.width.toNat) {first second : Byte} (hat : TokenAt first second s)
    (h : exec (classify r first second) s = .next t) : DecoderStep s t := by
  by_cases hf : first = 0
  · subst hf
    by_cases h0 : second = 0
    · subst h0
      rcases token_cases h with h | ⟨hc, h⟩
      · exact .raised h
      · split at h
        · rename_i hr
          cases h; exact .eol r hm (rowInGrid_iff.mp hr) hopen hc hat
        · cases h
    by_cases h1 : second = 1
    · subst h1
      rcases token_cases h with h | ⟨hc, h⟩
      · exact .raised h
      · split at h
        · rename_i hr
          cases h; exact .eob r hm (rowInGrid_iff.mp hr) hopen hc hat
        · cases h
    by_cases h2 : second = 2
    · subst h2
      rcases token_cases h with h | ⟨hc, h⟩
      · exact .raised h
      · cases h; exact .raised (raise_raised (by decide) _ (by constructor <;> rfl))
    rw [classify_absolute r (three_le_of_ne h0 h1 h2)] at h
    cases r with
    | rle4 =>
      rcases execAbs4_cases hw hl h with h | ⟨hc, hg⟩
      · exact .raised h
      · exact .run .rle4 _ _ hm hrow hopen (by omega) hc hg
    | rle8 =>
      rcases execAbs8_cases hw hl h with h | ⟨hc, hg⟩
      · exact .raised h
      · exact .run .rle8 _ _ hm hrow hopen (by omega) hc hg
  · rw [classify_encoded r second hf] at h
    cases r with
    | rle4 =>
      rcases encoded_cases (b := 4) (alternate_lt _ _) hw hl h with h | ⟨hc, hg⟩
      · exact .raised h
      · exact .run .rle4 _ _ hm hrow hopen (by omega) hc hg
    | rle8 =>
      rcases encoded_cases (b := 8) (fun _ => BitVec.isLt _) hw hl h with h | ⟨hc, hg⟩
      · exact .raised h
      · exact .run .rle8 _ _ hm hrow hopen (by omega) hc hg

/-- What an unpack that the state selects can do. -/
theorem unpack_step {m : Mode} {s t : State} (hm : modeOf s.mode = some m) (hp : isPacked m = true) (hrow : s.row ≠ s.height)
    (hsub : s.sub = .pixels) (hopen : s.len < s.width) (hl : s.len.toNat ≤ s.width.toNat) {B : Byte}
    (h : unpack (bitsPerPixel m) B s = .next t) : DecoderStep s t := by
  rcases unpack_cases (by cases m <;> decide) h with h | ⟨hc, hg⟩
  · exact .raised h
  · exact .unpack m hm hp hrow hsub hopen hc (hg hl)

/-- Everything an operation of the decoder can do, if it gives a next state. -/
theorem decoderOperation_cases {s t : State} (hw : s.width.toNat < 2 ^ 31) (hl : s.len.toNat ≤ s.width.toNat)
    (h : decoderOperation s = .next t) : DecoderStep s t := by
  unfold decoderOperation at h
  split at h
  · cases h
  rename_i c hsel
  unfold select at hsel
  split at hsel
  · rename_i hi
    cases hsel
    cases h
    exact .finish (beq_iff_eq.mp hi)
  rename_i hi
  have hrow : s.row ≠ s.height := fun e => hi (beq_iff_eq.mpr e)
  split at hsel
  · cases hsel
  rename_i m hm
  cases hsel
  have hlen : ¬ s.len < s.width → s.width ≤ s.len := Reg32.not_lt.mp
  by_cases hp : isPacked m = true
  · cases hsub : s.sub with
    | pixels =>
      by_cases ho : s.len < s.width
      · have hsel : selectInRow m s = unpackContext m := by
          simp only [selectInRow, hp, if_true, hsub, rowOpen_iff.mpr ho]
        rw [hsel] at h
        cases hd : s.stream.drop s.cur with
        | nil =>
          rw [hd] at h
          have : t = raise .truncatedPixelData s.cur s := by
            cases m <;> first | (exact absurd hp (by decide)) | (cases h; rfl)
          rw [this]
          exact .raised (raise_raised (by decide) _ (KeepsConfig.refl s))
        | cons B rest =>
          rw [hd] at h
          cases m <;> first | (exact absurd hp (by decide)) | exact unpack_step hm hp hrow hsub ho hl h
      · have hsel : selectInRow m s = .padset := by
          simp only [selectInRow, hp, if_true, hsub, rowOpen, ho, decide_false, Bool.false_eq_true, if_false]
        rw [hsel] at h
        have h : execPadset s = .next t := h
        unfold execPadset at h
        rw [hm] at h
        cases h
        exact .padset m hm hp hrow hsub (hlen ho)
    | pad =>
      by_cases hz : s.padcnt = 0
      · have hsel : selectInRow m s = .rowend := by
          simp only [selectInRow, hp, if_true, hsub, hz]
        rw [hsel] at h
        have h : execRowend s = .next t := h
        unfold execRowend at h
        split at h
        · rename_i hr
          cases h
          exact .rowend m hm (rowInGrid_iff.mp hr) (.inl ⟨hp, hsub, hz⟩)
        · cases h
      · have hsel : selectInRow m s = .padskip := by
          simp only [selectInRow, hp, if_true, hsub, if_neg hz]
        rw [hsel] at h
        cases hd : s.stream.drop s.cur with
        | nil =>
          rw [hd] at h
          cases h
          exact .raised (raise_raised (by decide) _ (KeepsConfig.refl s))
        | cons B rest =>
          have hc : s.cur < s.stream.length := by
            by_contra hge
            rw [List.drop_eq_nil_of_le (by omega)] at hd
            cases hd
          rw [hd] at h
          have h : execPadskip B s = .next t := h
          rw [execPadskip, fetch_of_lt _ hc] at h
          cases h
          exact .padskip m hm hp hrow hsub hz hc
  · by_cases ho : s.len < s.width
    · obtain ⟨r, rfl⟩ : ∃ r, m = rleMode r := by
        cases m <;> first | (exact absurd rfl hp) | exact ⟨.rle4, rfl⟩ | exact ⟨.rle8, rfl⟩
      have hsel : selectInRow (rleMode r) s = .token r := by
        cases r <;> simp only [selectInRow, rleMode, isPacked, Bool.false_eq_true, if_false, rowOpen_iff.mpr ho, if_true, unpackContext]
      rw [hsel] at h
      rcases hd : s.stream.drop s.cur with _ | ⟨first, _ | ⟨second, rest⟩⟩
      · rw [hd] at h
        cases h
        exact .raised (raise_raised (k := .truncatedRleStream) (by decide) _ (KeepsConfig.refl s))
      · rw [hd] at h
        cases h
        exact .raised (raise_raised (k := .truncatedRleStream) (by decide) _ (KeepsConfig.refl s))
      · rw [hd] at h
        have hat : TokenAt first second s := by
          constructor
          · have := congrArg (fun l => l[0]?) hd; simpa using this
          · have := congrArg (fun l => l[1]?) hd; simpa using this
        exact token_step hm hrow ho hw hl hat h
    · have hsel : selectInRow m s = .rowend := by
        simp only [selectInRow, hp, rowOpen, ho, decide_false, Bool.false_eq_true, if_false]
      rw [hsel] at h
      have h : execRowend s = .next t := h
      unfold execRowend at h
      split at h
      · rename_i hr
        cases h
        exact .rowend m hm (rowInGrid_iff.mp hr) (.inr ⟨Bool.eq_false_iff.mpr hp, hlen ho⟩)
      · cases h

/-- What one step can do, over the host's moves, the commands and the decoder. -/
inductive StepCase (s : State) : State → Prop where
  | ignored (v : BitVec 2) (hc : s.ctrl = some v) : StepCase s { s with ctrl := none }
  | start (hc : s.ctrl = some 1) (hp : s.phase = .idle) (hw : configWritten s = true) : StepCase s (startDecode { s with ctrl := none })
  | clear (hc : s.ctrl = some 2) (hp : s.phase = .done ∨ s.phase = .fault) :
      StepCase s { forgetWorking { s with ctrl := none } with phase := .idle, errKind := .none, errOffset := 0, rowbuf := [], grid := [] }
  | decoder {t : State} (box : List HostMove) (hc : s.ctrl = none) (hp : s.phase = .run)
      (h : decoderOperation { s with inbox := box } = .next t) : StepCase s t
  | nothing (box : List HostMove) (got : Option Nat) (hc : s.ctrl = none) : StepCase s { s with inbox := box, answer := got }
  | writeMode (v : BitVec 3) (rest : List HostMove) (hc : s.ctrl = none) (hp : s.phase = .idle) (hi : s.inbox = .writeMode v :: rest) :
      StepCase s { s with inbox := rest, mode := v, modeWritten := true }
  | writeWidth (v : Reg32) (rest : List HostMove) (hc : s.ctrl = none) (hp : s.phase = .idle) (hi : s.inbox = .writeWidth v :: rest) :
      StepCase s { s with inbox := rest, width := v, widthWritten := true }
  | writeHeight (v : Reg32) (rest : List HostMove) (hc : s.ctrl = none) (hp : s.phase = .idle) (hi : s.inbox = .writeHeight v :: rest) :
      StepCase s { s with inbox := rest, height := v, heightWritten := true }
  | writeDataOffset (v : Reg32) (rest : List HostMove) (hc : s.ctrl = none) (hp : s.phase = .idle)
      (hi : s.inbox = .writeDataOffset v :: rest) : StepCase s { s with inbox := rest, dataOffset := v, dataOffsetWritten := true }
  | attach (bytes : List Byte) (rest : List HostMove) (hc : s.ctrl = none) (hp : s.phase ≠ .run) (hi : s.inbox = .attach bytes :: rest) :
      StepCase s { s with inbox := rest, stream := bytes }
  | writeCtrl (v : BitVec 2) (rest : List HostMove) (hc : s.ctrl = none) (hi : s.inbox = .writeCtrl v :: rest) :
      StepCase s { s with inbox := rest, ctrl := some v }
  | reset (rest : List HostMove) (hc : s.ctrl = none) (hi : s.inbox = .reset :: rest) :
      StepCase s (resetBlock { s with inbox := rest })

theorem ctrl_cases (v : BitVec 2) : v = 0 ∨ v = 1 ∨ v = 2 ∨ v = 3 := by
  revert v; decide

theorem decoderTurn_cases {s t : State} (box : List HostMove) (hc : s.ctrl = none)
    (h : decoderTurn { s with inbox := box } = .next t) : StepCase s t := by
  by_cases hp : s.phase = .run
  · rw [decoderTurn_run (s := { s with inbox := box }) hp] at h
    exact .decoder box hc hp h
  · rw [decoderTurn_not_run (s := { s with inbox := box }) hp] at h
    cases h
    exact .nothing box s.answer hc

theorem whenIdle_cases {s t u : State} (h : whenIdle s t = u) : (s.phase = .idle ∧ u = t) ∨ u = s := by
  unfold whenIdle at h
  split at h
  · exact .inl ⟨‹_›, h.symm⟩
  · exact .inr h.symm

/-- Everything a step can do, if it gives a next state. -/
theorem step_cases {s t : State} (h : step s = .next t) : StepCase s t := by
  unfold step turn at h
  split at h
  · rename_i v hc
    rcases ctrl_cases v with rfl | rfl | rfl | rfl
    · cases h; exact .ignored _ hc
    · have h : execStart { s with ctrl := none } = .next t := h
      unfold execStart at h
      split at h
      · rename_i hp
        split at h
        · rename_i hw
          cases h; exact .start hc hp hw
        · cases h
      · cases h; exact .ignored _ hc
    · have h : execClear { s with ctrl := none } = .next t := h
      unfold execClear at h
      split at h
      · rename_i hp
        cases h; exact .clear hc hp
      · cases h; exact .ignored _ hc
    · cases h; exact .ignored _ hc
  · rename_i hc
    split at h
    · rename_i m rest hi
      cases m with
      | writeMode v =>
        injection h with h
        rcases whenIdle_cases h with ⟨hp, rfl⟩ | rfl
        · exact .writeMode v rest hc hp hi
        · exact .nothing rest s.answer hc
      | writeWidth v =>
        injection h with h
        rcases whenIdle_cases h with ⟨hp, rfl⟩ | rfl
        · exact .writeWidth v rest hc hp hi
        · exact .nothing rest s.answer hc
      | writeHeight v =>
        injection h with h
        rcases whenIdle_cases h with ⟨hp, rfl⟩ | rfl
        · exact .writeHeight v rest hc hp hi
        · exact .nothing rest s.answer hc
      | writeDataOffset v =>
        injection h with h
        rcases whenIdle_cases h with ⟨hp, rfl⟩ | rfl
        · exact .writeDataOffset v rest hc hp hi
        · exact .nothing rest s.answer hc
      | attach bytes =>
        simp only [hostTurn] at h
        split at h
        · cases h
        · rename_i hp
          cases h; exact .attach bytes rest hc hp hi
      | writeCtrl v => cases h; exact .writeCtrl v rest hc hi
      | read r => cases h; exact .nothing rest _ hc
      | pass => exact decoderTurn_cases rest hc h
      | await =>
        simp only [hostTurn] at h
        split at h
        · exact decoderTurn_cases s.inbox hc h
        · cases h; exact .nothing rest _ hc
      | reset => cases h; exact .reset rest hc hi
    · exact decoderTurn_cases s.inbox hc h

end Sys2Proof.Machine
end

