-- ==== Sys2Proof/Laws/Frames.lean ====
section
/-! SUPPORT. What no operation of the decoder can do, in ANY state (no invariant is assumed): write the configuration, the stream or a port, or leave its phase
otherwise than by a raise, FINISH or EOB. -/

namespace Sys2Proof.Machine

/-- `t` came from `s` with the configuration kept, and either PHASE and ERR_KIND too or by a raise. -/
structure KeptOrRaised (s t : State) : Prop where
  config : KeepsConfig s t
  status : (t.phase = s.phase ∧ t.errKind = s.errKind) ∨ (t.phase = .fault ∧ t.errKind ∈ raisedKinds)

/-- A part of an operation that keeps configuration and status while it goes on, and otherwise raises. -/
structure FlowKeeps {α : Type} (s : State) (x : Flow α) : Prop where
  go : ∀ a t, x = .go a t → KeepsConfig s t ∧ t.phase = s.phase ∧ t.errKind = s.errKind ∧ t.sub = s.sub
  raised : ∀ t, x = .raised t → KeptOrRaised s t ∧ t.phase = .fault

theorem KeptOrRaised.of {s t u : State} (h : KeepsConfig s t ∧ t.phase = s.phase ∧ t.errKind = s.errKind ∧ t.sub = s.sub) (w : KeptOrRaised t u) : KeptOrRaised s u := by
  refine ⟨h.1.trans w.config, ?_⟩
  rcases w.status with h1 | h1
  · exact .inl ⟨h1.1.trans h.2.1, h1.2.trans h.2.2.1⟩
  · exact .inr h1

theorem raise_kept {k : ErrKind} (hk : k ∈ raisedKinds) (off : Nat) (s : State) : KeptOrRaised s (raise k off s) := ⟨raise_keepsConfig _ _ _, .inr ⟨rfl, hk⟩⟩

theorem fetch_kept {k : ErrKind} (hk : k ∈ raisedKinds) (s : State) : FlowKeeps s (fetch k s) := by
  by_cases h : s.cur < s.stream.length
  · rw [fetch_of_lt _ h]
    exact ⟨fun a t e => (by cases e; exact ⟨by constructor <;> rfl, rfl, rfl, rfl⟩), fun t e => (by cases e)⟩
  · rw [fetch_end _ (by omega)]
    exact ⟨fun a t e => (by cases e), fun t e => (by cases e; exact ⟨raise_kept hk _ _, rfl⟩)⟩

theorem FlowKeeps.andThen {α : Type} {s : State} {x : Flow α} {k : α → State → Result} {t : State} (h : FlowKeeps s x) (e : x.andThen k = .next t)
    (hk : ∀ a s1, x = .go a s1 → k a s1 = .next t → KeptOrRaised s1 t) : KeptOrRaised s t := by
  cases x with
  | go a s1 => exact KeptOrRaised.of (h.go a s1 rfl) (hk a s1 rfl e)
  | raised s1 => cases e; exact (h.raised _ rfl).1

theorem fetchToken_kept (s : State) : FlowKeeps s (fetchToken s) := by
  by_cases h : s.cur + 2 ≤ s.stream.length
  · rw [fetchToken_go h]
    exact ⟨fun a t e => (by cases e; exact ⟨by constructor <;> rfl, rfl, rfl, rfl⟩), fun t e => (by cases e)⟩
  · obtain ⟨u, heq, hf, -⟩ := fetchToken_end (s := s) (by omega)
    rw [heq]
    exact ⟨fun a t e => (by cases e), fun t e => (by cases e; exact ⟨⟨hf.keeps, .inr ⟨hf.phase, by rw [hf.errKind]; decide⟩⟩, hf.phase⟩)⟩

theorem FlowKeeps.of {α : Type} {s s1 : State} {x : Flow α} (h : KeepsConfig s s1 ∧ s1.phase = s.phase ∧ s1.errKind = s.errKind ∧ s1.sub = s.sub) (w : FlowKeeps s1 x) : FlowKeeps s x :=
  ⟨fun a t e => by
    obtain ⟨h1, h2, h3, h4⟩ := w.go a t e
    exact ⟨h.1.trans h1, h2.trans h.2.1, h3.trans h.2.2.1, h4.trans h.2.2.2⟩, fun t e => ⟨KeptOrRaised.of h (w.raised t e).1, (w.raised t e).2⟩⟩

theorem literals8_kept (n : Nat) (s : State) : FlowKeeps s (literals8 n s) := by
  induction n generalizing s with
  | zero => exact ⟨fun a t e => (by cases e; exact ⟨by constructor <;> rfl, rfl, rfl, rfl⟩), fun t e => (by cases e)⟩
  | succ n ih =>
    have hf := fetch_kept (k := .truncatedRleStream) (by decide) s
    rw [literals8]
    cases hx : fetch .truncatedRleStream s with
    | raised s1 =>
      exact ⟨fun a t e => (by cases e), fun t e => (by cases e; exact hf.raised _ hx)⟩
    | go b s1 =>
      have := hf.go _ _ hx
      exact FlowKeeps.of (s1 := emit b s1) ⟨this.1.trans (by constructor <;> rfl), this.2⟩ (ih (emit b s1))

theorem literals4_kept (n i : Nat) (B : Byte) (s : State) : FlowKeeps s (literals4 n i B s) := by
  induction n generalizing s i B with
  | zero => exact ⟨fun a t e => (by cases e; exact ⟨by constructor <;> rfl, rfl, rfl, rfl⟩), fun t e => (by cases e)⟩
  | succ n ih =>
    have hf := fetch_kept (k := .truncatedRleStream) (by decide) s
    rw [literals4]
    split
    · cases hx : fetch .truncatedRleStream s with
      | raised s1 =>
        exact ⟨fun a t e => (by cases e), fun t e => (by cases e; exact hf.raised _ hx)⟩
      | go b s1 =>
        have := hf.go _ _ hx
        exact FlowKeeps.of (s1 := emit (field 4 0 b) s1) ⟨this.1.trans (by constructor <;> rfl), this.2⟩ (ih (i + 1) b (emit (field 4 0 b) s1))
    · exact FlowKeeps.of (s1 := emit (field 4 1 B) s) ⟨by constructor <;> rfl, rfl, rfl, rfl⟩ (ih (i + 1) B (emit (field 4 1 B) s))

theorem padByte_kept (n : Nat) (s : State) : FlowKeeps s (padByte n s) := by
  have hf := fetch_kept (k := .truncatedRleStream) (by decide) s
  unfold padByte
  split
  · cases hx : fetch .truncatedRleStream s with
    | raised s1 => exact ⟨fun a t e => (by cases e), fun t e => (by cases e; exact hf.raised _ hx)⟩
    | go b s1 => exact ⟨fun a t e => (by cases e; exact hf.go _ _ hx), fun t e => (by cases e)⟩
  · exact ⟨fun a t e => (by cases e; exact ⟨by constructor <;> rfl, rfl, rfl, rfl⟩), fun t e => (by cases e)⟩

theorem endRun_kept {t0 : Nat} {s t : State} (h : endRun t0 s = .next t) : KeptOrRaised s t := by
  rcases endRun_cases h with rfl | ⟨rfl, -⟩
  · exact raise_kept (by decide) _ _
  · exact ⟨KeepsConfig.refl _, .inl ⟨rfl, rfl⟩⟩

theorem unpack_kept {b : Nat} {B : Byte} {s t : State} (h : unpack b B s = .next t) : KeptOrRaised s t := by
  refine (fetch_kept (k := .truncatedPixelData) (by decide) s).andThen h fun _ s1 _ e => ?_
  obtain ⟨rb, heq, -⟩ := unpackFields_spec b B (8 / b) 0 s1
  rw [heq] at e; cases e
  exact ⟨by constructor <;> rfl, .inl ⟨rfl, rfl⟩⟩

theorem run_kept {f : Nat → Byte} {t0 n : Nat} {s t : State} (h : endRun t0 (emitRun f n 0 s) = .next t) : KeptOrRaised s t := by
  obtain ⟨rb, heq, -⟩ := emitRun_spec f n 0 s
  rw [heq] at h
  exact KeptOrRaised.of (t := { s with len := s.len + BitVec.ofNat 32 n, rowbuf := rb }) ⟨by constructor <;> rfl, rfl, rfl, rfl⟩ (endRun_kept h)

/-- What operation `i` leaves of `s` in `t`: the configuration always; PHASE and ERR_KIND too, but for a raise and for the end of the decode. -/
def ExecKept (i : Instr) (s t : State) : Prop :=
  KeepsConfig s t ∧
    ((t.errKind = s.errKind ∧ (t.phase = s.phase ∨ t.phase = .done ∧ (i = .finish ∨ i = .eob))) ∨ (t.phase = .fault ∧ t.errKind ∈ raisedKinds))

/-- What an operation of the decoder keeps, in any state. -/
theorem exec_kept {i : Instr} {s t : State} (hf : i.format ≠ .c) (h : exec i s = .next t) : ExecKept i s t := by
  have key : KeptOrRaised s t → ExecKept i s t := by
    intro w; refine ⟨w.config, ?_⟩
    rcases w.status with h | h
    · exact .inl ⟨h.2, .inl h.1⟩
    · exact .inr h
  cases i with
  | start => exact absurd rfl hf
  | clear => exact absurd rfl hf
  | finish => cases h; exact ⟨by constructor <;> rfl, .inl ⟨rfl, .inr ⟨rfl, .inl rfl⟩⟩⟩
  | rowend =>
    have h : execRowend s = .next t := h
    unfold execRowend at h
    split at h
    · cases h; exact key ⟨by constructor <;> rfl, .inl ⟨rfl, rfl⟩⟩
    · cases h
  | unpack1 b => exact key (unpack_kept h)
  | unpack2 b => exact key (unpack_kept h)
  | unpack4 b => exact key (unpack_kept h)
  | unpack8 b => exact key (unpack_kept h)
  | padset =>
    have h : execPadset s = .next t := h
    unfold execPadset at h
    split at h
    · cases h
    · cases h; exact key ⟨by constructor <;> rfl, .inl ⟨rfl, rfl⟩⟩
  | padskip b =>
    refine key ((fetch_kept (k := .truncatedPixelData) (by decide) s).andThen h fun _ s1 _ e => ?_)
    cases e; exact ⟨by constructor <;> rfl, .inl ⟨rfl, rfl⟩⟩
  | eol =>
    refine key ((fetchToken_kept s).andThen h fun _ s1 _ e => ?_)
    split at e
    · cases e; exact ⟨by constructor <;> rfl, .inl ⟨rfl, rfl⟩⟩
    · cases e
  | eob =>
    have hw := fetchToken_kept s
    have h : (fetchToken s).andThen (fun _ s1 => if rowInGrid s1 then .next (endBitmap s1) else .fault .rowOutsideGrid) = .next t := h
    cases hx : fetchToken s with
    | raised s1 => rw [hx] at h; cases h; exact key (hw.raised _ hx).1
    | go a s1 =>
      rw [hx] at h
      simp only [Flow.andThen] at h
      split at h
      · cases h
        obtain ⟨h1, h2, h3, -⟩ := fillRows_keeps (s1.height.toNat - s1.row.toNat) s1
        obtain ⟨g1, g2, g3, -⟩ := hw.go _ _ hx
        refine ⟨g1.trans (h1.trans (by constructor <;> rfl)), .inl ⟨h3.trans g3, .inr ⟨rfl, .inr rfl⟩⟩⟩
      · cases h
  | delta =>
    refine key ((fetchToken_kept s).andThen h fun _ s1 _ e => ?_)
    cases e; exact raise_kept (by decide) _ _
  | abs4 n =>
    refine key ((fetchToken_kept s).andThen h fun _ s1 _ e => ?_)
    refine (literals4_kept _ _ _ s1).andThen e fun _ s2 _ e => ?_
    exact (padByte_kept _ s2).andThen e fun _ s3 _ e => endRun_kept e
  | abs8 n =>
    refine key ((fetchToken_kept s).andThen h fun _ s1 _ e => ?_)
    refine (literals8_kept _ s1).andThen e fun _ s2 _ e => ?_
    exact (padByte_kept _ s2).andThen e fun _ s3 _ e => endRun_kept e
  | enc4 n p q => exact key ((fetchToken_kept s).andThen h fun _ s1 _ e => run_kept e)
  | enc8 n v => exact key ((fetchToken_kept s).andThen h fun _ s1 _ e => run_kept e)

end Sys2Proof.Machine
end

