-- ==== Sys2Proof/Laws/PerInstr.lean ====
section
/-! SUPPORT. One law per instruction: how many stream bytes its encoding and the whole operation have (spec/30_encoding.md R70, R74, R79). -/

namespace Sys2Proof.Laws.LengthLaw

/-- The length of an encoding is that of its format, and a token operation is an even number of bytes whatever body it has; every other operation has
no bytes beyond its encoding. -/
def Statement (i : Instr) : Prop :=
  match i.format with
  | .t => (encode i).length = 2 ∧ instrLength i % 2 = 0
  | .p => (encode i).length = 1 ∧ instrLength i = 1
  | .f => (encode i).length = 1 ∧ instrLength i = 1
  | .s => (encode i).length = 0 ∧ instrLength i = 0
  | .c => (encode i).length = 0 ∧ instrLength i = 0

theorem start : Statement .start := ⟨rfl, rfl⟩

theorem clear : Statement .clear := ⟨rfl, rfl⟩

theorem finish : Statement .finish := ⟨rfl, rfl⟩

theorem rowend : Statement .rowend := ⟨rfl, rfl⟩

theorem unpack1 (b : Byte) : Statement (.unpack1 b) := ⟨rfl, rfl⟩

theorem unpack2 (b : Byte) : Statement (.unpack2 b) := ⟨rfl, rfl⟩

theorem unpack4 (b : Byte) : Statement (.unpack4 b) := ⟨rfl, rfl⟩

theorem unpack8 (b : Byte) : Statement (.unpack8 b) := ⟨rfl, rfl⟩

theorem padset : Statement .padset := ⟨rfl, rfl⟩

theorem padskip (b : Byte) : Statement (.padskip b) := ⟨rfl, rfl⟩

theorem eol : Statement .eol := ⟨rfl, rfl⟩

theorem eob : Statement .eob := ⟨rfl, rfl⟩

theorem delta : Statement .delta := ⟨rfl, rfl⟩

theorem abs4 (n : Byte) : Statement (.abs4 n) :=
  ⟨rfl, by show (2 + (n.toNat + 1) / 2 + (n.toNat + 1) / 2 % 2) % 2 = 0; omega⟩

theorem abs8 (n : Byte) : Statement (.abs8 n) :=
  ⟨rfl, by show (2 + n.toNat + n.toNat % 2) % 2 = 0; omega⟩

theorem enc4 (n : Byte) (p q : BitVec 4) : Statement (.enc4 n p q) :=
  ⟨rfl, by show (2 + 0 + 0 % 2) % 2 = 0; rfl⟩

theorem enc8 (n v : Byte) : Statement (.enc8 n v) :=
  ⟨rfl, by show (2 + 0 + 0 % 2) % 2 = 0; rfl⟩

end Sys2Proof.Laws.LengthLaw
end

