-- ==== Sys2Proof/Tests/Slice0.lean ====
section
/-! SUPPORT. Tests. Expected values are the spec's: words written out from spec/30_encoding.md, and vectors of spec/95_test_vectors.md (V46 to V67, each
one operation). After them, for every statement with hypotheses, a state that meets them. -/

namespace Sys2Proof.Tests

open Sys2Proof.Machine

/-! ## Well-formedness -/

/-- Counts outside R78's ranges are refused: (0, 2) is DELTA and not an absolute run, (0, v) is no encoded run. -/
theorem test_ill_formed_counts :
    (Instr.abs4 2).wellFormed = false ∧ (Instr.abs8 2).wellFormed = false ∧ (Instr.enc4 0 1 2).wellFormed = false ∧
      (Instr.enc8 0 7).wellFormed = false := by decide

theorem test_well_formed_counts :
    (Instr.abs4 3).wellFormed = true ∧ (Instr.abs8 255).wellFormed = true ∧ (Instr.enc4 1 15 0).wellFormed = true ∧
      (Instr.enc8 255 0).wellFormed = true := by decide

/-! ## Decoding: one word for every row of the table, from R71 to R77 and R81 -/

theorem test_decode_start : decode (.command 0b01#2) [] = .ok (.start, []) := rfl

theorem test_decode_clear : decode (.command 0b10#2) [] = .ok (.clear, []) := rfl

theorem test_decode_no_command : decode (.command 0b00#2) [] = .error .notACommand ∧ decode (.command 0b11#2) [] = .error .notACommand :=
  ⟨rfl, rfl⟩

theorem test_decode_no_bytes :
    decode .finish [0xFF#8] = .ok (.finish, [0xFF#8]) ∧ decode .rowend [0x01#8] = .ok (.rowend, [0x01#8]) ∧
      decode .padset [] = .ok (.padset, []) := ⟨rfl, rfl, rfl⟩

theorem test_decode_packed :
    decode .unpack1 [0b10000000#8] = .ok (.unpack1 0x80, []) ∧ decode .unpack2 [0b11100100#8, 0#8] = .ok (.unpack2 0xE4, [0]) ∧
      decode .unpack4 [0x5F#8] = .ok (.unpack4 0x5F, []) ∧ decode .unpack8 [0x0B#8] = .ok (.unpack8 0x0B, []) := ⟨rfl, rfl, rfl, rfl⟩

theorem test_decode_padskip : decode .padskip [0xEE#8] = .ok (.padskip 0xEE, []) ∧ decode .padskip [] = .error (.missingByte 0) := ⟨rfl, rfl⟩

/-- 00 00, 00 01 and 00 02 are the escapes in both modes. -/
theorem test_decode_escapes :
    decode (.token .rle4) [0b00000000#8, 0b00000000#8] = .ok (.eol, []) ∧ decode (.token .rle8) [0b00000000#8, 0b00000001#8] = .ok (.eob, []) ∧
      decode (.token .rle4) [0b00000000#8, 0b00000010#8] = .ok (.delta, []) := ⟨rfl, rfl, rfl⟩

/-- 00 05 is an absolute run of five; its body stays in the stream. -/
theorem test_decode_absolute :
    decode (.token .rle4) [0x00#8, 0x05#8, 0x12#8] = .ok (.abs4 5, [0x12]) ∧ decode (.token .rle8) [0x00#8, 0x03#8] = .ok (.abs8 3, []) :=
  ⟨rfl, rfl⟩

/-- 05 12 in RLE4 is five pixels alternating 1 and 2; 03 05 in RLE8 three pixels 5. -/
theorem test_decode_encoded :
    decode (.token .rle4) [0b00000101#8, 0b00010010#8] = .ok (.enc4 5 1 2, []) ∧
      decode (.token .rle8) [0b00000011#8, 0b00000101#8] = .ok (.enc8 3 5, []) := ⟨rfl, rfl⟩

theorem test_decode_half_token : decode (.token .rle8) [0x00#8] = .error (.missingByte 1) := rfl

/-- R82's notation: `ABS8 10, 11, 12, 13, 14` and `ABS4 1, 2, 3, 4, 5` with their pad bytes. -/
theorem test_stream_notation :
    streamAbs8 [10, 11, 12, 13, 14] = [0x00, 0x05, 0x0A, 0x0B, 0x0C, 0x0D, 0x0E, 0x00] ∧
      streamAbs4 [1, 2, 3, 4, 5] = [0x00, 0x05, 0x12, 0x34, 0x50, 0x00] := by decide

/-! ## One operation -/

/-- The result is a next state with property `p`. -/
def nextIs (r : Result) (p : State → Bool) : Bool :=
  match r with
  | .next t => p t
  | .fault _ => false
  | .refused _ => false

/-- The block in phase RUN at the beginning of the first row, with DATA_OFFSET = 0. -/
def runState (mode : BitVec 3) (width height : Reg32) (stream : List Byte) : State :=
  { State.reset with
    phase := .run
    mode := mode
    width := width
    height := height
    modeWritten := true
    widthWritten := true
    heightWritten := true
    dataOffsetWritten := true
    stream := stream }

/-- The block in phase IDLE with the four configuration registers written. -/
def idleState (mode : BitVec 3) (width height dataOffset : Reg32) : State :=
  { runState mode width height [] with phase := .idle, dataOffset := dataOffset }

/-- R90's example: MODE 5, WIDTH 3, HEIGHT 1, DATA_OFFSET 54. -/
theorem test_start : nextIs (exec .start (idleState 5 3 1 54)) (fun t =>
    t.phase == .run && t.cur == 54 && t.row == 0 && t.len == 0) = true := by decide

/-- V49: the MODE test comes before the sign of HEIGHT. -/
theorem test_start_reserved_mode : nextIs (exec .start (idleState 7 4 0xFFFFFFFF 54)) (fun t =>
    t.phase == .fault && t.errKind == .invalidFormatCombination && t.errOffset == 54) = true := by decide

/-- R96. -/
theorem test_clear : nextIs (exec .clear { runState 5 3 1 [] with phase := .fault, errKind := .corruptRowLength, errOffset := 9 }) (fun t =>
    t.phase == .idle && t.errKind == .none && t.errOffset == 0 && t.mode == 5 && t.grid.length == 0) = true := by decide

/-- V61. -/
theorem test_finish : nextIs (step { runState 4 4 1 [] with row := 1, cur := 56 }) (fun t => t.phase == .done && t.cur == 56) = true := by decide

/-- V60. -/
theorem test_rowend : nextIs (exec .rowend { runState 5 3 1 [] with len := 3, rowbuf := [(0, 5), (1, 5), (2, 5)] }) (fun t =>
    t.grid == [(0, 5), (1, 5), (2, 5)] && t.row == 1 && t.len == 0 && t.rowbuf == []) = true := by decide

/-- V54. -/
theorem test_unpack1 : nextIs (exec (.unpack1 0x80) (runState 0 8 1 [0x80])) (fun t =>
    t.rowbuf == [(0, 1), (1, 0), (2, 0), (3, 0), (4, 0), (5, 0), (6, 0), (7, 0)] && t.len == 8 && t.cur == 1) = true := by decide

/-- V55: one field fits, three are dropped. -/
theorem test_unpack2 : nextIs (exec (.unpack2 0xE4) { runState 1 5 1 [0x1B, 0xE4] with len := 4, cur := 1 }) (fun t =>
    t.rowbuf == [(4, 3)] && t.len == 5 && t.cur == 2) = true := by decide

/-- V56. -/
theorem test_unpack4 : nextIs (exec (.unpack4 0x5F) { runState 2 5 1 [0x12, 0x34, 0x5F] with len := 4, cur := 2 }) (fun t =>
    t.rowbuf == [(4, 5)] && t.len == 5 && t.cur == 3) = true := by decide

/-- V57. -/
theorem test_unpack8 : nextIs (exec (.unpack8 0x0B) { runState 3 3 1 [0x0A, 0x0B] with len := 1, cur := 1 }) (fun t =>
    t.rowbuf == [(1, 11)] && t.len == 2 && t.cur == 2) = true := by decide

/-- V17: the byte wanted is not there. -/
theorem test_unpack8_truncated : nextIs (step { runState 3 3 1 [0x01, 0x02] with len := 2, cur := 2 }) (fun t =>
    t.phase == .fault && t.errKind == .truncatedPixelData && t.errOffset == 2) = true := by decide

/-- V58. -/
theorem test_padset : nextIs (exec .padset { runState 2 5 1 [] with len := 5 }) (fun t => t.sub == .pad && t.padcnt == 1) = true := by decide

/-- R110: the least filler count at a WIDTH whose product with b passes 2^32 without wrapping. -/
theorem test_padset_wide : nextIs (exec .padset { runState 3 0x7FFFFFFD 1 [] with len := 0x7FFFFFFD }) (fun t => t.padcnt == 3) = true := by
  decide

/-- V59's shape, at offset 1. -/
theorem test_padskip : nextIs (exec (.padskip 0xEE) { runState 3 2 1 [0x00, 0xEE] with sub := .pad, padcnt := 2, cur := 1 }) (fun t =>
    t.padcnt == 1 && t.cur == 2) = true := by decide

/-- V62: the row is filled from LEN on and goes to the last grid row. -/
theorem test_eol : nextIs (exec .eol { runState 5 4 2 [0x02, 0x09, 0x00, 0x00] with len := 2, cur := 2, rowbuf := [(0, 9), (1, 9)] }) (fun t =>
    t.grid == [(4, 9), (5, 9), (6, 0), (7, 0)] && t.row == 1 && t.len == 0 && t.cur == 4) = true := by decide

/-- V63. -/
theorem test_eob : nextIs (exec .eob { runState 5 3 2 [0x03, 0x05, 0x00, 0x01] with row := 1, cur := 2 }) (fun t =>
    t.grid == [(0, 0), (1, 0), (2, 0)] && t.row == 2 && t.phase == .done && t.cur == 4) = true := by decide

/-- V24's DELTA. -/
theorem test_delta : nextIs (step { runState 5 4 1 [0x01, 0x09, 0x00, 0x02] with len := 1, cur := 2, rowbuf := [(0, 9)] }) (fun t =>
    t.phase == .fault && t.errKind == .unsupportedRleEscape && t.errOffset == 2) = true := by decide

/-- V37's ABS4: three literal bytes, one pad byte. -/
theorem test_abs4 : nextIs (exec (.abs4 5) (runState 4 5 1 [0x00, 0x05, 0x12, 0x34, 0x5F, 0x00])) (fun t =>
    t.rowbuf == [(0, 1), (1, 2), (2, 3), (3, 4), (4, 5)] && t.len == 5 && t.cur == 6) = true := by decide

/-- V42's ABS4: the pad byte is missing. -/
theorem test_abs4_truncated : nextIs (exec (.abs4 5) (runState 4 5 1 [0x00, 0x05, 0x12, 0x34, 0x5F])) (fun t =>
    t.errKind == .truncatedRleStream && t.errOffset == 5) = true := by decide

/-- V2's ABS8. -/
theorem test_abs8 : nextIs (exec (.abs8 5) (runState 5 5 1 [0x00, 0x05, 0x0A, 0x0B, 0x0C, 0x0D, 0x0E, 0xFF, 0x00, 0x01])) (fun t =>
    t.rowbuf == [(0, 10), (1, 11), (2, 12), (3, 13), (4, 14)] && t.len == 5 && t.cur == 8) = true := by decide

/-- V50: too long and cut short; the truncation is reported. -/
theorem test_abs8_truncated : nextIs (exec (.abs8 4) (runState 5 3 1 [0x00, 0x04, 0x01, 0x02, 0x03])) (fun t =>
    t.errKind == .truncatedRleStream && t.errOffset == 5) = true := by decide

/-- V64. -/
theorem test_enc4 : nextIs (exec (.enc4 5 1 2) (runState 4 5 1 [0x05, 0x12])) (fun t =>
    t.rowbuf == [(0, 1), (1, 2), (2, 1), (3, 2), (4, 1)] && t.len == 5 && t.cur == 2) = true := by decide

/-- R140's example. -/
theorem test_enc8 : nextIs (exec (.enc8 3 5) (runState 5 3 1 [0x03, 0x05])) (fun t =>
    t.rowbuf == [(0, 5), (1, 5), (2, 5)] && t.len == 3 && t.cur == 2) = true := by decide

/-- V22: five pixels in a row of four. -/
theorem test_enc8_over : nextIs (exec (.enc8 5 9) (runState 5 4 1 [0x05, 0x09])) (fun t =>
    t.errKind == .corruptRowLength && t.errOffset == 0) = true := by decide

/-- R180: a reset in phase RUN. -/
theorem test_reset_move : nextIs (step { runState 5 4 1 [0x05] with inbox := [.reset] }) (fun t =>
    t.phase == .idle && t.modeWritten == false && t.stream == [0x05]) = true := by decide

/-- R22: a write in phase RUN is ignored. -/
theorem test_write_in_run : nextIs (step { runState 5 4 1 [] with inbox := [.writeMode 0] }) (fun t => t.mode == 5) = true := by decide

/-- V-S7 and R186. -/
theorem test_host_dispatch : hostDispatch 12 0 = .fail .unsupportedBitDepth ∧ hostDispatch 4 1 = .fail .invalidFormatCombination := by decide

/-- Memory at reset is in canonical form. -/
theorem test_reset_memory_wf : State.reset.grid.wf ∧ State.reset.rowbuf.wf := ⟨Memory.wf_nil, Memory.wf_nil⟩

/-! ## The table's words -/

theorem test_table_words :
    decodeTableWord 8 1 = some .start ∧ decodeTableWord 8 2 = some .clear ∧ decodeTableWord 0 0 = some .finish ∧
      decodeTableWord 8 0x80 = some (.unpack1 0x80) ∧ decodeTableWord 16 0x0000 = some .eol ∧ decodeTableWord 16 0x0001 = some .eob ∧
      decodeTableWord 16 0x0002 = some .delta ∧ decodeTableWord 16 0x0005 = some (.abs4 5) ∧
      decodeTableWord 16 0x0512 = some (.enc4 5 1 2) := by decide

theorem test_fetch_word_start : nextIs (step (State.reset.withFetchWord 8 1)) (fun t => t.phase == .run) = true := by decide

theorem test_fetch_word_clear : nextIs (step (State.reset.withFetchWord 8 2)) (fun t => t.phase == .idle) = true := by decide

theorem test_fetch_word_finish : nextIs (step (State.reset.withFetchWord 0 0)) (fun t => t.phase == .done) = true := by decide

theorem test_fetch_word_unpack : nextIs (step (State.reset.withFetchWord 8 0x80)) (fun t =>
    t.cur == 1 && t.rowbuf.read 0 == some 1) = true := by decide

theorem test_fetch_word_eob : nextIs (step (State.reset.withFetchWord 16 1)) (fun t => t.phase == .done && t.cur == 2) = true := by decide

theorem test_fetch_word_enc4 : nextIs (step (State.reset.withFetchWord 16 0x0512)) (fun t =>
    t.len == 5 && t.rowbuf.read 1 == some 2) = true := by decide

/-! ## Every statement's hypotheses are met -/

/-- The beginning of a decode is a state of the invariant. -/
theorem runState_inv (mode : BitVec 3) (width height : Reg32) (stream : List Byte) (hm : (modeOf mode).isSome = true) (hw : width.toNat < 2 ^ 31)
    (hh : height.toNat < 2 ^ 31) : Inv (runState mode width height stream) where
  rowbuf_wf := Memory.wf_nil
  grid_wf := Memory.wf_nil
  no_fault _ := ⟨rfl, rfl⟩
  fault_kind h := by cases h
  written _ := rfl
  idle h := by cases h
  done h := by cases h
  run _ :=
    { mode := hm
      width_legal := ⟨hw, by show width.toNat ≤ 2147483647; omega⟩
      height_legal := ⟨hh, by show height.toNat ≤ 2147483647; omega⟩
      row_le := Nat.zero_le _
      len_le := Nat.zero_le _
      rowbuf_written := fun c => by show (Memory.read [] c).isSome = true ↔ c < 0; simp
      grid_written := fun a => by
        show (Memory.read [] a).isSome = true ↔ (height.toNat - 0) * width.toNat ≤ a ∧ a < height.toNat * width.toNat
        simp
      pad_row_full := fun h => by cases h
      pad_packed := fun h => by cases h
      pixels_no_pad := fun _ => rfl
      cur_ge := Nat.le_refl _
      cur_le := .inl (Nat.zero_le _)
      row_complete := fun _ => ⟨rfl, rfl⟩
      pad_count := fun _ _ h => by cases h }

theorem runState_running {mode : BitVec 3} {m : Mode} {width height : Reg32} {stream : List Byte} (hm : modeOf mode = some m) (hh : 0 < height) :
    Running m (runState mode width height stream) := ⟨⟨rfl, rfl⟩, rfl, hh, hm⟩

/-- A token is expected in RLE4 at CUR = 0 with all of a row of five to come. -/
theorem expected4 (stream : List Byte) : TokenExpected .rle4 (runState 4 5 1 stream) :=
  ⟨runState_running rfl (by decide), by show (0 : Reg32) < 5; decide⟩

theorem expected8 (stream : List Byte) : TokenExpected .rle8 (runState 5 5 1 stream) :=
  ⟨runState_running rfl (by decide), by show (0 : Reg32) < 5; decide⟩

theorem tokenAt_head {s : State} {first second : Byte} {rest : List Byte} (hs : s.stream = first :: second :: rest) (hc : s.cur = 0) :
    TokenAt first second s := ⟨by rw [hs, hc]; rfl, by rw [hs, hc]; rfl⟩

theorem witness_DecodeOfEncode :
    (Instr.abs4 3).wellFormed = true ∧ (Instr.enc4 255 15 0).wellFormed = true ∧ (Instr.enc8 1 0).wellFormed = true := by decide

theorem witness_EncodeOfDecode : decode (.token .rle4) [0x00, 0x03, 0x12] = .ok (.abs4 3, [0x12]) := rfl

/-- One state for each line of the selection, at the bounds of LEN and PADCNT. -/
theorem witness_SelectionFollowsTheTable :
    ((runState 6 5 0 []).row = (runState 6 5 0 []).height) ∧
    (∃ s : State, s.row ≠ s.height ∧ s.mode.toNat ≤ 3 ∧ s.sub = .pixels ∧ s.len < s.width ∧ s.mode = 0) ∧
    (∃ s : State, s.row ≠ s.height ∧ s.mode.toNat ≤ 3 ∧ s.sub = .pixels ∧ s.len < s.width ∧ s.mode = 1) ∧
    (∃ s : State, s.row ≠ s.height ∧ s.mode.toNat ≤ 3 ∧ s.sub = .pixels ∧ s.len < s.width ∧ s.mode = 2) ∧
    (∃ s : State, s.row ≠ s.height ∧ s.mode.toNat ≤ 3 ∧ s.sub = .pixels ∧ s.len < s.width ∧ s.mode = 3) ∧
    (∃ s : State, s.row ≠ s.height ∧ s.mode.toNat ≤ 3 ∧ s.sub = .pixels ∧ s.width ≤ s.len) ∧
    (∃ s : State, s.row ≠ s.height ∧ s.mode.toNat ≤ 3 ∧ s.sub = .pad ∧ s.padcnt ≠ 0) ∧
    (∃ s : State, s.row ≠ s.height ∧ s.mode.toNat ≤ 3 ∧ s.sub = .pad ∧ s.padcnt = 0) ∧
    (∃ s : State, s.row ≠ s.height ∧ (s.mode = 4 ∨ s.mode = 5) ∧ s.width ≤ s.len) ∧
    (∃ s : State, s.row ≠ s.height ∧ s.mode = 4 ∧ s.len < s.width) ∧
    (∃ s : State, s.row ≠ s.height ∧ s.mode = 5 ∧ s.len < s.width) ∧
    (∃ s : State, Quiet s ∧ s.phase ≠ .run) :=
  ⟨rfl, ⟨runState 0 1 1 [], by decide⟩, ⟨runState 1 1 1 [], by decide⟩, ⟨runState 2 1 1 [], by decide⟩, ⟨runState 3 1 1 [], by decide⟩,
    ⟨{ runState 3 1 1 [] with len := 1 }, by decide⟩, ⟨{ runState 3 1 1 [] with sub := .pad, padcnt := 3 }, by decide⟩,
    ⟨{ runState 3 1 1 [] with sub := .pad }, by decide⟩, ⟨{ runState 4 1 1 [] with len := 1 }, by decide⟩, ⟨runState 4 1 1 [], by decide⟩,
    ⟨runState 5 1 1 [], by decide⟩, ⟨State.reset, ⟨rfl, rfl⟩, by decide⟩⟩

theorem witness_StepRunsDecodedInstruction :
    ∃ (s : State) (c : Context) (i : Instr) (rest : List Byte), Quiet s ∧ s.phase = .run ∧ select s = some c ∧
      decode c (s.stream.drop s.cur) = .ok (i, rest) ∧ i.wellFormed = true :=
  ⟨runState 5 3 1 [0x03, 0x05], .token .rle8, .enc8 3 5, [], ⟨rfl, rfl⟩, rfl, rfl, rfl, rfl⟩

theorem witness_CommandAtCtrlIsTaken :
    ({ State.reset with ctrl := some 1 } : State).ctrl = some 1 ∧ ({ State.reset with ctrl := some 2 } : State).ctrl = some 2 ∧
      (({ State.reset with ctrl := some 3 } : State).ctrl = some 0 ∨ ({ State.reset with ctrl := some 3 } : State).ctrl = some 3) := by decide

/-- The seven classes of a token, and the two ways its bytes are missing. -/
theorem witness_TokenIsFetchedAndClassified :
    (TokenExpected .rle4 (runState 4 5 1 [1, 0xAB]) ∧ TokenAt 1 0xAB (runState 4 5 1 [1, 0xAB])) ∧
    (TokenExpected .rle8 (runState 5 5 1 [255, 0]) ∧ TokenAt 255 0 (runState 5 5 1 [255, 0])) ∧
    (TokenExpected .rle4 (runState 4 5 1 [0, 0]) ∧ TokenAt 0 0 (runState 4 5 1 [0, 0])) ∧
    (TokenExpected .rle8 (runState 5 5 1 [0, 1]) ∧ TokenAt 0 1 (runState 5 5 1 [0, 1])) ∧
    (TokenExpected .rle8 (runState 5 5 1 [0, 2]) ∧ TokenAt 0 2 (runState 5 5 1 [0, 2])) ∧
    (TokenExpected .rle4 (runState 4 5 1 [0, 3]) ∧ TokenAt 0 3 (runState 4 5 1 [0, 3])) ∧
    (TokenExpected .rle8 (runState 5 5 1 [0, 255]) ∧ TokenAt 0 255 (runState 5 5 1 [0, 255])) ∧
    (TokenExpected .rle8 (runState 5 5 1 []) ∧ (runState 5 5 1 []).stream.length ≤ (runState 5 5 1 []).cur) ∧
    (TokenExpected .rle8 (runState 5 5 1 [0]) ∧ (runState 5 5 1 [0]).stream.length = (runState 5 5 1 [0]).cur + 1) :=
  ⟨⟨expected4 _, tokenAt_head rfl rfl⟩, ⟨expected8 _, tokenAt_head rfl rfl⟩, ⟨expected4 _, tokenAt_head rfl rfl⟩,
    ⟨expected8 _, tokenAt_head rfl rfl⟩, ⟨expected8 _, tokenAt_head rfl rfl⟩, ⟨expected4 _, tokenAt_head rfl rfl⟩,
    ⟨expected8 _, tokenAt_head rfl rfl⟩, ⟨expected8 _, Nat.le_refl _⟩, ⟨expected8 _, rfl⟩⟩

theorem witness_FetchReadsOneByteOrFaults :
    (∃ (s : State) (b : Byte), s.stream[s.cur]? = some b) ∧ (∃ s : State, s.stream.length ≤ s.cur) ∧
    (∃ s : State, Running .depth8Rle s ∧ s.stream.length ≤ s.cur ∧ s.sub = .pixels ∧ s.len < s.width) ∧
    (∃ s : State, Running .depth8 s ∧ s.stream.length ≤ s.cur ∧ isPacked .depth8 = true ∧ s.sub = .pad ∧ s.padcnt ≠ 0) ∧
    (∃ s : State, Inv s ∧ s.phase = .run ∧ s.stream.length ≤ s.cur) :=
  ⟨⟨runState 5 5 1 [7], 7, rfl⟩, ⟨runState 5 5 1 [], Nat.le_refl _⟩,
    ⟨runState 5 5 1 [], runState_running rfl (by decide), Nat.le_refl _, rfl, by decide⟩,
    ⟨{ runState 3 3 1 [] with sub := .pad, padcnt := 1, len := 3 }, ⟨⟨rfl, rfl⟩, rfl, by decide, rfl⟩, Nat.le_refl _, rfl, rfl, by decide⟩,
    ⟨runState 5 5 1 [], runState_inv _ _ _ _ rfl (by decide) (by decide), rfl, Nat.le_refl _⟩⟩

/-- A reserved MODE; a negative HEIGHT; the largest legal WIDTH with HEIGHT 0. -/
theorem witness_StartBeginsDecodeOrFaults :
    (∃ s : State, s.phase = .idle ∧ configWritten s = true ∧ 6 ≤ s.mode.toNat) ∧
    (∃ s : State, s.phase = .idle ∧ configWritten s = true ∧ s.mode.toNat < 6 ∧
      (s.height.msb = true ∨ s.width.msb = true ∨ s.maxWidth < s.width.toNat ∨ s.maxHeight < s.height.toNat)) ∧
    (∃ s : State, s.phase = .idle ∧ configWritten s = true ∧ s.mode.toNat < 6 ∧ s.height.msb = false ∧ s.width.msb = false ∧
      s.width.toNat ≤ s.maxWidth ∧ s.height.toNat ≤ s.maxHeight) :=
  ⟨⟨idleState 6 4 1 0, by decide⟩, ⟨idleState 5 4 0x80000000 0, by decide⟩, ⟨idleState 5 0x7FFFFFFF 0 0, by decide⟩⟩

theorem witness_CommandsOutsideTheirPhase :
    (runState 5 5 1 []).phase ≠ .idle ∧ (State.reset.phase = .idle ∧ configWritten State.reset = false) ∧
      (State.reset.phase = .idle ∨ State.reset.phase = .run) := by decide

theorem witness_ClearReturnsToIdle :
    ({ State.reset with phase := .done } : State).phase = .done ∧ ({ State.reset with phase := .fault } : State).phase = .fault := by decide

theorem witness_RowendCommitsTheRow :
    (∃ s : State, Running .depth1 s ∧ isPacked .depth1 = true ∧ s.sub = .pad ∧ s.padcnt = 0) ∧
    (∃ s : State, Running .depth4Rle s ∧ isPacked .depth4Rle = false ∧ s.width ≤ s.len) ∧
    (∃ s : State, Inv s ∧ Running .depth4Rle s ∧ isPacked .depth4Rle = false ∧ s.width ≤ s.len) ∧ (∃ s : State, s.row < s.height) :=
  ⟨⟨{ runState 0 3 1 [] with sub := .pad }, ⟨⟨rfl, rfl⟩, rfl, by decide, rfl⟩, rfl, rfl, rfl⟩,
    ⟨{ runState 4 1 1 [] with len := 1 }, ⟨⟨rfl, rfl⟩, rfl, by decide, rfl⟩, rfl, by decide⟩,
    ⟨runState 4 0 1 [], runState_inv _ _ _ _ rfl (by decide) (by decide), runState_running rfl (by decide), rfl, by decide⟩,
    ⟨runState 4 1 1 [], by decide⟩⟩

theorem witness_FinishEndsTheDecode : ∃ s : State, Quiet s ∧ s.phase = .run ∧ s.row = s.height := ⟨runState 3 3 0 [], ⟨rfl, rfl⟩, rfl, rfl⟩

theorem witness_StopsByName :
    (∃ s : State, Quiet s ∧ s.phase = .run ∧ s.row ≠ s.height ∧ 6 ≤ s.mode.toNat) ∧ (∃ s : State, 6 ≤ s.mode.toNat) ∧
      (∃ s : State, s.height ≤ s.row) ∧ (∃ s : State, s.height ≤ s.row ∧ s.cur + 2 ≤ s.stream.length) :=
  ⟨⟨runState 6 1 1 [], ⟨rfl, rfl⟩, rfl, by decide, by decide⟩, ⟨runState 7 1 1 [], by decide⟩, ⟨runState 5 1 0 [], by decide⟩,
    ⟨runState 5 1 0 [0, 0], by decide, Nat.le_refl _⟩⟩

theorem witness_UnpackAddsTheFieldsOfOneByte :
    (runState 0 1 1 [0x80]).cur < (runState 0 1 1 [0x80]).stream.length ∧ (runState 0 1 1 []).stream.length ≤ (runState 0 1 1 []).cur := by decide

theorem witness_UnpackIsSelectedByMode :
    (∃ s : State, Running .depth1 s ∧ s.sub = .pixels ∧ s.len < s.width ∧ s.stream[s.cur]? = some 0x80) ∧
    (∃ s : State, Running .depth2 s ∧ s.sub = .pixels ∧ s.len < s.width ∧ s.stream[s.cur]? = some 0x80) ∧
    (∃ s : State, Running .depth4 s ∧ s.sub = .pixels ∧ s.len < s.width ∧ s.stream[s.cur]? = some 0x80) ∧
    (∃ s : State, Running .depth8 s ∧ s.sub = .pixels ∧ s.len < s.width ∧ s.stream[s.cur]? = some 0x80) :=
  ⟨⟨runState 0 1 1 [0x80], runState_running rfl (by decide), rfl, by decide, rfl⟩,
    ⟨runState 1 1 1 [0x80], runState_running rfl (by decide), rfl, by decide, rfl⟩,
    ⟨runState 2 1 1 [0x80], runState_running rfl (by decide), rfl, by decide, rfl⟩,
    ⟨runState 3 1 1 [0x80], runState_running rfl (by decide), rfl, by decide, rfl⟩⟩

/-- The selection, and the four depths at WIDTH 0, 1 and 33. -/
theorem witness_PadsetCountsTheFillers :
    (∃ s : State, Running .depth2 s ∧ isPacked .depth2 = true ∧ s.sub = .pixels ∧ s.width ≤ s.len) ∧
    (∃ s : State, s.mode = 0 ∧ 5 = (s.width.toNat + 7) / 8) ∧ (∃ s : State, s.mode = 1 ∧ 1 = (s.width.toNat + 3) / 4) ∧
    (∃ s : State, s.mode = 2 ∧ 0 = (s.width.toNat + 1) / 2) ∧ (∃ s : State, s.mode = 3 ∧ 33 = s.width.toNat) :=
  ⟨⟨runState 1 0 1 [], runState_running rfl (by decide), rfl, rfl, by decide⟩, ⟨runState 0 33 1 [], by decide⟩, ⟨runState 1 1 1 [], by decide⟩,
    ⟨runState 2 0 1 [], by decide⟩, ⟨runState 3 33 1 [], by decide⟩⟩

theorem witness_PadskipSkipsOneFiller :
    (∃ s : State, Running .depth8 s ∧ isPacked .depth8 = true ∧ s.sub = .pad ∧ s.padcnt ≠ 0 ∧ s.stream[s.cur]? = some 0xEE) ∧
    (∃ s : State, s.cur < s.stream.length) ∧ (∃ s : State, s.stream.length ≤ s.cur) :=
  ⟨⟨{ runState 3 3 1 [0xEE] with sub := .pad, padcnt := 1 }, ⟨⟨rfl, rfl⟩, rfl, by decide, rfl⟩, rfl, rfl, by decide, rfl⟩,
    ⟨runState 3 3 1 [0xEE], by decide⟩, ⟨runState 3 3 1 [], Nat.le_refl _⟩⟩

theorem witness_StoredRowIsRowBytesAndFillers : (8 : Nat) = 1 ∨ (8 : Nat) = 2 ∨ (8 : Nat) = 4 ∨ (8 : Nat) = 8 := by decide

/-- For the escapes: the token where one is expected, with a row to produce, and half a token. -/
theorem witness_escapes :
    (∃ s : State, TokenExpected .rle4 s ∧ TokenAt 0 0 s ∧ s.cur + 2 ≤ s.stream.length ∧ s.row < s.height) ∧
    (∃ s : State, TokenExpected .rle8 s ∧ TokenAt 0 1 s ∧ s.cur + 2 ≤ s.stream.length ∧ s.row < s.height) ∧
    (∃ s : State, TokenExpected .rle8 s ∧ TokenAt 0 2 s ∧ s.cur + 2 ≤ s.stream.length) ∧ (∃ s : State, s.stream.length < s.cur + 2) :=
  ⟨⟨runState 4 5 1 [0, 0], expected4 _, tokenAt_head rfl rfl, Nat.le_refl _, by decide⟩,
    ⟨runState 5 5 1 [0, 1], expected8 _, tokenAt_head rfl rfl, Nat.le_refl _, by decide⟩,
    ⟨runState 5 5 1 [0, 2], expected8 _, tokenAt_head rfl rfl, Nat.le_refl _⟩, ⟨runState 5 5 1 [0], by decide⟩⟩

/-- EOB's cells: column LEN, a column below LEN that is written, a row above the current one, and a row below it. -/
theorem witness_EobFillsTheGridAndEnds :
    ∃ s : State, s.cur + 2 ≤ s.stream.length ∧ s.row < s.height ∧ (s.len.toNat ≤ 1 ∧ 1 < s.width.toNat) ∧
      (0 < s.len.toNat ∧ 0 < s.width.toNat ∧ s.rowbuf.read 0 = some 9) ∧ 1 < (s.height.toNat - 1 - s.row.toNat) * s.width.toNat ∧
      (s.height.toNat - 1 - s.row.toNat) * s.width.toNat + s.width.toNat ≤ 4 :=
  ⟨{ runState 5 2 2 [0, 1] with len := 1, rowbuf := [(0, 9)] }, by decide⟩

/-- For the encoded runs: selected; the row filled exactly; one pixel too many; half a token. -/
theorem witness_encoded_runs :
    (∃ s : State, TokenExpected .rle4 s ∧ (5 : Byte) ≠ 0 ∧ TokenAt 5 0x12 s) ∧ (∃ s : State, TokenExpected .rle8 s ∧ (5 : Byte) ≠ 0 ∧ TokenAt 5 9 s) ∧
    (∃ s : State, s.cur + 2 ≤ s.stream.length ∧ s.len.toNat + (5 : Byte).toNat ≤ s.width.toNat) ∧
    (∃ s : State, s.cur + 2 ≤ s.stream.length ∧ s.len < s.width ∧ s.width.msb = false ∧ s.width.toNat < s.len.toNat + (5 : Byte).toNat) ∧
    (∃ s : State, s.stream.length < s.cur + 2) :=
  ⟨⟨runState 4 5 1 [5, 0x12], expected4 _, by decide, tokenAt_head rfl rfl⟩, ⟨runState 5 5 1 [5, 9], expected8 _, by decide, tokenAt_head rfl rfl⟩,
    ⟨runState 5 5 1 [5, 9], by decide⟩, ⟨runState 5 4 1 [5, 9], by decide⟩, ⟨runState 5 4 1 [5], by decide⟩⟩

/-- For the absolute runs: selected; the row filled exactly with every byte there; one pixel too many; the pad byte missing. -/
theorem witness_absolute_runs :
    (∃ s : State, TokenExpected .rle4 s ∧ 3 ≤ (5 : Byte).toNat ∧ TokenAt 0 5 s ∧
      s.cur + 2 + ((5 : Byte).toNat + 1) / 2 + ((5 : Byte).toNat + 1) / 2 % 2 ≤ s.stream.length ∧ s.len.toNat + (5 : Byte).toNat ≤ s.width.toNat) ∧
    (∃ s : State, TokenExpected .rle8 s ∧ 3 ≤ (3 : Byte).toNat ∧ TokenAt 0 3 s ∧
      s.cur + 2 + (3 : Byte).toNat + (3 : Byte).toNat % 2 ≤ s.stream.length ∧ s.len.toNat + (3 : Byte).toNat ≤ s.width.toNat) ∧
    (∃ s : State, s.cur + 2 + ((5 : Byte).toNat + 1) / 2 + ((5 : Byte).toNat + 1) / 2 % 2 ≤ s.stream.length ∧ s.len < s.width ∧
      s.width.msb = false ∧ s.width.toNat < s.len.toNat + (5 : Byte).toNat) ∧
    (∃ s : State, s.cur + 2 + (3 : Byte).toNat + (3 : Byte).toNat % 2 ≤ s.stream.length ∧ s.len < s.width ∧ s.width.msb = false ∧
      s.width.toNat < s.len.toNat + (3 : Byte).toNat) ∧
    (∃ s : State, s.stream.length < s.cur + 2 + ((5 : Byte).toNat + 1) / 2 + ((5 : Byte).toNat + 1) / 2 % 2) ∧
    (∃ s : State, s.stream.length < s.cur + 2 + (3 : Byte).toNat + (3 : Byte).toNat % 2) :=
  ⟨⟨runState 4 5 1 [0, 5, 0x12, 0x34, 0x5F, 0], expected4 _, by decide, tokenAt_head rfl rfl, by decide, by decide⟩,
    ⟨runState 5 5 1 [0, 3, 1, 2, 3, 0], expected8 _, by decide, tokenAt_head rfl rfl, by decide, by decide⟩,
    ⟨runState 4 4 1 [0, 5, 0x12, 0x34, 0x5F, 0], by decide⟩, ⟨runState 5 2 1 [0, 3, 1, 2, 3, 0], by decide⟩,
    ⟨runState 4 5 1 [0, 5, 0x12, 0x34, 0x5F], by decide⟩, ⟨runState 5 5 1 [0, 3, 1, 2, 3], by decide⟩⟩

theorem witness_CommitRowPlacesTheRow : (runState 5 1 1 []).row < (runState 5 1 1 []).height := by decide

theorem witness_RaiseRecordsKindAndOffset : raise .corruptRowLength 7 State.reset = raise .corruptRowLength 7 State.reset ∧ Quiet State.reset :=
  ⟨rfl, rfl, rfl⟩

theorem witness_ResetLeavesIdleAndNoValues :
    ∃ s t : State, s.ctrl = none ∧ s.inbox = .reset :: [] ∧ s.phase = .run ∧ step s = .next t :=
  ⟨{ runState 5 1 1 [] with inbox := [.reset] }, _, rfl, rfl, rfl, rfl⟩

theorem witness_HostWritesOnlyInIdle :
    (∃ s : State, s.ctrl = none ∧ s.inbox = .writeMode 5 :: []) ∧ (∃ s : State, s.ctrl = none ∧ s.inbox = .writeWidth 3 :: []) ∧
    (∃ s : State, s.ctrl = none ∧ s.inbox = .writeHeight 1 :: []) ∧ (∃ s : State, s.ctrl = none ∧ s.inbox = .writeDataOffset 54 :: []) :=
  ⟨⟨{ State.reset with inbox := [.writeMode 5] }, rfl, rfl⟩, ⟨{ State.reset with inbox := [.writeWidth 3] }, rfl, rfl⟩,
    ⟨{ State.reset with inbox := [.writeHeight 1] }, rfl, rfl⟩, ⟨{ State.reset with inbox := [.writeDataOffset 54] }, rfl, rfl⟩⟩

/-- Attaching in IDLE and in RUN, the CTRL write, and the two ways of waiting. -/
theorem witness_HostAttachesCommandsAndWaits :
    (∃ s : State, s.ctrl = none ∧ s.inbox = .attach [3, 5] :: [] ∧ s.phase ≠ .run) ∧
    (∃ s : State, s.ctrl = none ∧ s.inbox = .attach [3, 5] :: [] ∧ s.phase = .run) ∧
    (∃ s : State, s.ctrl = none ∧ s.inbox = .writeCtrl 1 :: []) ∧ (∃ s : State, s.ctrl = none ∧ s.inbox = .pass :: []) ∧
    (∃ s : State, s.ctrl = none ∧ s.inbox = .await :: []) :=
  ⟨⟨{ State.reset with inbox := [.attach [3, 5]] }, rfl, rfl, by decide⟩, ⟨{ runState 5 3 1 [] with inbox := [.attach [3, 5]] }, rfl, rfl, rfl⟩,
    ⟨{ State.reset with inbox := [.writeCtrl 1] }, rfl, rfl⟩, ⟨{ runState 5 3 1 [] with inbox := [.pass] }, rfl, rfl⟩,
    ⟨{ runState 5 3 1 [] with inbox := [.await] }, rfl, rfl⟩⟩

/-- MODE read after reset gives no value (R40); ERR_OFFSET reads as held in FAULT and is not read in DONE (R201). -/
theorem test_read :
    nextIs (step { State.reset with inbox := [.read .mode], answer := some 7 }) (fun t => t.answer == none && t.inbox.isEmpty) = true ∧
    nextIs (step { runState 5 3 1 [] with phase := .fault, errKind := .truncatedRleStream, errOffset := 5, inbox := [.read .errOffset] })
      (fun t => t.answer == some 5 && t.errOffset == 5) = true ∧
    nextIs (step { runState 5 3 1 [] with phase := .done, inbox := [.read .errOffset] }) (fun t => t.answer == none) = true := by decide

/-- Grid cell (0, 2) of a finished 3 by 1 image, at the last column, and the cells just beyond; a read the table lists and one it does not. -/
theorem witness_HostReadsFollowTheTable :
    (runState 5 3 1 []).phase ≠ .done ∧
    (∃ s : State, s.phase = .done ∧ 0 < s.height.toNat ∧ 2 < s.width.toNat ∧ s.grid.read (0 * s.width.toNat + 2) = some 5) ∧
    ((runState 5 3 1 []).height.toNat ≤ 1 ∧ (runState 5 3 1 []).width.toNat ≤ 3) ∧
    (∃ s : State, s.ctrl = none ∧ s.inbox = .read .errOffset :: [] ∧ s.phase = .run ∧ hostRead .errOffset s = some 0) ∧
    (∃ s : State, s.ctrl = none ∧ s.inbox = .read .mode :: [] ∧ hostRead .mode s = none) :=
  ⟨by decide, ⟨{ runState 5 3 1 [] with phase := .done, grid := [(0, 5), (1, 5), (2, 5)] }, by decide⟩, by decide,
    ⟨{ runState 5 3 1 [] with inbox := [.read .errOffset] }, rfl, rfl, rfl, by decide⟩, ⟨{ State.reset with inbox := [.read .mode] }, rfl, rfl, rfl⟩⟩

theorem witness_HostDispatchFollowsTheTable :
    ((12 : Nat) ∉ [1, 2, 4, 8, 16, 24, 32] ∧ (33 : Nat) ∉ [1, 2, 4, 8, 16, 24, 32]) ∧ ((32 : Nat) ∈ [1, 2, 4, 8, 16, 24, 32] ∧ (3 : Nat) ∉ [0, 1, 2]) := by
  decide

/-- The invariants at the beginning of an RLE8 decode, and a step from there. -/
theorem witness_StepKeepsInvariant :
    ∃ s t : State, Inv s ∧ IndicesInRange s ∧ step s = .next t :=
  ⟨runState 5 3 1 [0x03, 0x05], _, runState_inv _ _ _ _ rfl (by decide) (by decide),
    fun _ _ => ⟨fun _ _ _ h => (by cases h), fun _ _ _ h => (by cases h)⟩, rfl⟩

/-- A packed mode at its first byte. -/
theorem witness_StepKeepsPackedPosition : ∃ s t : State, Inv s ∧ PackedPosition s ∧ step s = .next t :=
  ⟨runState 3 3 1 [1, 2, 3, 0], _, runState_inv _ _ _ _ rfl (by decide) (by decide), fun m hm _ => ⟨fun _ => by
    cases hm
    exact ⟨rfl, .inl rfl⟩, fun h => (by cases h)⟩, rfl⟩

theorem witness_DecoderNeverStops : ∃ s : State, Inv s ∧ Quiet s ∧ s.phase = .run :=
  ⟨runState 5 3 1 [], runState_inv _ _ _ _ rfl (by decide) (by decide), ⟨rfl, rfl⟩, rfl⟩

theorem witness_FaultIsLeftOnlyByClearOrReset :
    (∃ s t : State, s.phase = .fault ∧ s.ctrl = some 2 ∧ step s = .next t) ∧
    (∃ s t : State, s.phase = .fault ∧ s.ctrl = none ∧ s.inbox = .reset :: [] ∧ step s = .next t) ∧
    (∃ s t : State, s.phase = .fault ∧ Quiet s ∧ step s = .next t) :=
  ⟨⟨{ State.reset with phase := .fault, ctrl := some 2 }, _, rfl, rfl, rfl⟩,
    ⟨{ State.reset with phase := .fault, inbox := [.reset] }, _, rfl, rfl, rfl, rfl⟩, ⟨{ State.reset with phase := .fault }, _, rfl, ⟨rfl, rfl⟩, rfl⟩⟩

theorem witness_DoneIsReachedOnlyByFinishOrEob :
    (∃ s t : State, s.phase ≠ .done ∧ t.phase = .done ∧ step s = .next t ∧ s.row = s.height) ∧
    (∃ s t : State, s.phase ≠ .done ∧ t.phase = .done ∧ step s = .next t ∧ s.row ≠ s.height) :=
  ⟨⟨runState 5 1 0 [], { runState 5 1 0 [] with phase := .done }, by decide, rfl, rfl, rfl⟩,
    ⟨runState 5 1 1 [0, 1], endBitmap { runState 5 1 1 [0, 1] with cur := 2 }, by decide, rfl, rfl, by decide⟩⟩

/-- A step with no host move, and one with a write in phase IDLE. -/
theorem witness_ConfigurationChangesOnlyByHostWrites :
    (∃ s t : State, step s = .next t ∧ ¬ (s.ctrl = none ∧ ∃ rest, s.inbox = .reset :: rest)) ∧
    (∃ s t : State, step s = .next t ∧ ¬ (s.ctrl = none ∧ ∃ rest, s.inbox = .reset :: rest) ∧ t.mode ≠ s.mode) :=
  ⟨⟨runState 5 3 1 [], _, rfl, (by rintro ⟨-, _, h⟩; cases h)⟩,
    ⟨{ State.reset with inbox := [.writeMode 5] }, { State.reset with mode := 5, modeWritten := true }, rfl, (by rintro ⟨-, _, h⟩; cases h), by decide⟩⟩

theorem witness_StreamIsFixedDuringRun :
    (∃ s t : State, step s = .next t ∧ t.stream ≠ s.stream) ∧ (∃ s : State, s.ctrl = none ∧ s.phase = .run ∧ s.inbox = .attach [1] :: []) :=
  ⟨⟨{ State.reset with inbox := [.attach [1]] }, { State.reset with stream := [1] }, rfl, by decide⟩,
    ⟨{ runState 5 3 1 [] with inbox := [.attach [1]] }, rfl, rfl, rfl⟩⟩

theorem witness_HostSideErrorKindsAreNeverWritten : ∃ s t : State, step s = .next t ∧ t.errKind ≠ s.errKind :=
  ⟨runState 5 3 1 [], raise .truncatedRleStream 0 (runState 5 3 1 []), rfl, by decide⟩

theorem witness_OperationConsumesItsLength :
    ∃ (i : Instr) (s t : State), i.format ≠ .c ∧ exec i s = .next t ∧ t.phase ≠ .fault ∧ instrLength i = 6 :=
  ⟨.abs8 3, runState 5 3 1 [0, 3, 1, 2, 3, 0], { runState 5 3 1 [0, 3, 1, 2, 3, 0] with cur := 6, len := 3, rowbuf := [(0, 1), (1, 2), (2, 3)] },
    by decide, rfl, by decide, rfl⟩

/-- Two streams that differ below CUR only. -/
theorem witness_BytesBelowCurAreNotRead :
    ∃ (s : State) (y : List Byte), Quiet s ∧ s.phase = .run ∧ y.length = s.stream.length ∧ y.drop s.cur = s.stream.drop s.cur ∧ y ≠ s.stream :=
  ⟨{ runState 5 3 1 [7, 3, 5] with cur := 1 }, [8, 3, 5], ⟨rfl, rfl⟩, rfl, rfl, rfl, by decide⟩

/-- A row of one 1-bit pixel with its three fillers, and an empty row. -/
theorem witness_PackedRowIsDecodedWhole :
    (∃ s : State, Running .depth1 s ∧ s.sub = .pixels ∧ s.len = 0 ∧ s.cur + storedRow 1 s.width ≤ s.stream.length) ∧
    (∃ s : State, Running .depth8 s ∧ s.sub = .pixels ∧ s.len = 0 ∧ s.cur + storedRow 8 s.width ≤ s.stream.length) :=
  ⟨⟨runState 0 1 1 [0x80, 0, 0, 0], runState_running rfl (by decide), rfl, rfl, by decide⟩,
    ⟨runState 3 0 1 [], runState_running rfl (by decide), rfl, rfl, by decide⟩⟩

end Sys2Proof.Tests
end

/-! ## The end of the stream (R53)

What the decoder selects where it wants a byte, and that a step of phase RUN which finds none there is the truncation of the mode at CUR. -/

namespace Sys2Proof.Machine

/-- With an open row the next bytes are the mode's pixel data, in the packed and in the RLE modes (R72). -/
theorem selectInRow_of_open (m : Mode) {s : State} (hsub : s.sub = .pixels) (hopen : s.len < s.width) : selectInRow m s = unpackContext m := by
  simp only [selectInRow, hsub, rowOpen_iff.mpr hopen, if_true, ite_self]

/-- With fillers left the next byte is a filler (R72). -/
theorem selectInRow_of_fillers {m : Mode} {s : State} (hm : isPacked m = true) (hsub : s.sub = .pad) (hpad : s.padcnt ≠ 0) :
    selectInRow m s = .padskip := by
  simp only [selectInRow, hm, hsub, hpad, if_true, if_false]

theorem decode_unpackContext_nil (m : Mode) : decode (unpackContext m) [] = .error (.missingByte 0) := by
  cases m <;> rfl

theorem truncationKind_unpackContext (m : Mode) :
    truncationKind (unpackContext m) = if isPacked m then .truncatedPixelData else .truncatedRleStream := by
  cases m <;> rfl

/-- An operation of the decoder whose encoding lacks byte `k`: the truncation at that byte's offset (R73). -/
theorem decoderOperation_missing {s : State} {c : Context} {k : Nat} (hs : select s = some c)
    (hd : decode c (s.stream.drop s.cur) = .error (.missingByte k)) :
    decoderOperation s = .next (raise (truncationKind c) (s.cur + k) s) := by
  simp only [decoderOperation, hs, hd]

theorem step_of_running {m : Mode} {s : State} (h : Running m s) : step s = decoderOperation s := by
  rw [step_of_quiet h.quiet, decoderTurn_run h.phase]

/-- A step that selects an operation with a first byte, at or beyond the end of the stream. -/
theorem step_at_end {m : Mode} {s : State} {c : Context} (h : Running m s) (hend : s.stream.length ≤ s.cur)
    (hsel : selectInRow m s = c) (hc : decode c [] = .error (.missingByte 0)) : step s = .next (raise (truncationKind c) s.cur s) := by
  have hs : select s = some c := by rw [select_of_running h, hsel]
  have hd : decode c (s.stream.drop s.cur) = .error (.missingByte 0) := by rw [List.drop_eq_nil_of_le hend, hc]
  rw [step_of_running h, decoderOperation_missing hs hd, Nat.add_zero]

/-- A step that wants a pixel byte, a filler byte or a token at or beyond the end of the stream raises the truncation of its mode at CUR (R53). -/
theorem step_truncated {m : Mode} {s : State} (h : Running m s) (hend : s.stream.length ≤ s.cur)
    (hwant : (s.sub = .pixels ∧ s.len < s.width) ∨ (isPacked m = true ∧ s.sub = .pad ∧ s.padcnt ≠ 0)) :
    step s = .next (raise (if isPacked m then .truncatedPixelData else .truncatedRleStream) s.cur s) := by
  obtain ⟨hsub, hopen⟩ | ⟨hm, hsub, hpad⟩ := hwant
  · rw [step_at_end h hend (selectInRow_of_open m hsub hopen) (decode_unpackContext_nil m), truncationKind_unpackContext]
  · rw [step_at_end h hend (selectInRow_of_fillers hm hsub hpad) rfl, if_pos hm]
    rfl

/-- Where no byte is left CUR is N, or DATA_OFFSET where that lies beyond N (R53). -/
theorem RunInv.cur_at_end {s : State} (h : RunInv s) (hend : s.stream.length ≤ s.cur) :
    s.cur = s.stream.length ∨ (s.cur = s.dataOffset.toNat ∧ s.stream.length < s.dataOffset.toNat) := by
  have := h.cur_le
  omega

/-- Settles O8: the two outcomes of Fetch, the fault of a step that wants a byte at the end of the stream, and CUR there by the invariant. -/
theorem fetchReadsOneByteOrFaults : Obligations.FetchReadsOneByteOrFaults := by
  unfold Obligations.FetchReadsOneByteOrFaults
  refine ⟨fun k s => ⟨fun b hb => fetch_go k hb, fun hend => ⟨_, fetch_end k hend, raise_faultedWith _ _ _⟩⟩, ?_, ?_⟩
  · exact fun m s hrun hend hwant => ⟨_, step_truncated hrun hend hwant, raise_faultedWith _ _ _⟩
  · exact fun s hinv hphase hend => (hinv.run hphase).cur_at_end hend

end Sys2Proof.Machine

/-! ## The selection and the token (R72, R73)

One lemma for each line of R72, then what a step does where a token is expected: it runs the class of the two bytes at CUR, or is the truncation at the
first byte that is missing. -/

namespace Sys2Proof.Machine

/-- The first line of R72: no row is left to produce. -/
theorem select_of_row_eq_height {s : State} (hrow : s.row = s.height) : select s = some .finish := by
  simp only [select, imageComplete, beq_iff_eq.mpr hrow, if_true]

/-- The other lines of R72 are those of a row, in a mode that selects an engine. -/
theorem select_of_row_ne_height {m : Mode} {s : State} (hrow : s.row ≠ s.height) (hm : modeOf s.mode = some m) :
    select s = some (selectInRow m s) := by
  simp only [select, imageComplete, beq_eq_false_iff_ne.mpr hrow, hm, Bool.false_eq_true, if_false]

/-- MODE 0 to 3 are the packed modes (R24). -/
theorem exists_packed_modeOf {v : BitVec 3} (h : v.toNat ≤ 3) : ∃ m, modeOf v = some m ∧ isPacked m = true := by
  have hall : ∀ v : BitVec 3, v.toNat ≤ 3 → (modeOf v).any isPacked = true := by decide
  exact (Option.any_eq_true _ _).mp (hall v h)

theorem rowOpen_eq_false {s : State} (hfull : s.width ≤ s.len) : rowOpen s = false :=
  decide_eq_false (Reg32.not_lt.mpr hfull)

/-- A full row of a packed mode whose fillers are not counted yet. -/
theorem selectInRow_of_packed_full {m : Mode} {s : State} (hm : isPacked m = true) (hsub : s.sub = .pixels) (hfull : s.width ≤ s.len) :
    selectInRow m s = .padset := by
  simp only [selectInRow, hm, hsub, rowOpen_eq_false hfull, Bool.false_eq_true, if_true, if_false]

/-- A row of a packed mode whose fillers are all skipped. -/
theorem selectInRow_of_no_fillers {m : Mode} {s : State} (hm : isPacked m = true) (hsub : s.sub = .pad) (hpad : s.padcnt = 0) :
    selectInRow m s = .rowend := by
  simp only [selectInRow, hm, hsub, hpad, if_true]

/-- An RLE row that is full ends before any token is fetched. -/
theorem selectInRow_of_rle_full {r : Rle} {s : State} (hfull : s.width ≤ s.len) : selectInRow (rleMode r) s = .rowend := by
  have hm : isPacked (rleMode r) = false := by cases r <;> rfl
  simp only [selectInRow, hm, rowOpen_eq_false hfull, Bool.false_eq_true, if_false]

/-- An open RLE row takes a token, whatever SUB holds. -/
theorem selectInRow_of_rle_open {r : Rle} {s : State} (hopen : s.len < s.width) : selectInRow (rleMode r) s = .token r := by
  cases r <;> simp only [selectInRow, rleMode, isPacked, unpackContext, rowOpen_iff.mpr hopen, Bool.false_eq_true, if_true, if_false]

/-- Outside phase RUN the decoder has no operation. -/
theorem step_of_quiet_not_run {s : State} (hq : Quiet s) (hphase : s.phase ≠ .run) : step s = .next s := by
  rw [step_of_quiet hq, decoderTurn_not_run hphase]

/-- Settles O4: the lines of R72 in their order, each by the lemma of its line. -/
theorem selectionFollowsTheTable : Obligations.SelectionFollowsTheTable := by
  unfold Obligations.SelectionFollowsTheTable
  intro s
  refine ⟨select_of_row_eq_height, ?_, ?_, ?_, ?_, ?_, ?_, ?_, step_of_quiet_not_run⟩
  · intro hrow _ hsub hopen
    have hselect {m : Mode} (hmode : s.mode = modeCode m) : select s = some (unpackContext m) := by
      rw [select_of_row_ne_height hrow (hmode ▸ modeOf_modeCode m), selectInRow_of_open m hsub hopen]
    exact ⟨hselect (m := .depth1), hselect (m := .depth2), hselect (m := .depth4), hselect (m := .depth8)⟩
  · intro hrow hmode hsub hfull
    obtain ⟨m, hm, hpacked⟩ := exists_packed_modeOf hmode
    rw [select_of_row_ne_height hrow hm, selectInRow_of_packed_full hpacked hsub hfull]
  · intro hrow hmode hsub hpad
    obtain ⟨m, hm, hpacked⟩ := exists_packed_modeOf hmode
    rw [select_of_row_ne_height hrow hm, selectInRow_of_fillers hpacked hsub hpad]
  · intro hrow hmode hsub hpad
    obtain ⟨m, hm, hpacked⟩ := exists_packed_modeOf hmode
    rw [select_of_row_ne_height hrow hm, selectInRow_of_no_fillers hpacked hsub hpad]
  · intro hrow hmode hfull
    obtain ⟨r, hr⟩ : ∃ r, modeOf s.mode = some (rleMode r) := by
      obtain h | h := hmode
      · exact ⟨.rle4, h ▸ rfl⟩
      · exact ⟨.rle8, h ▸ rfl⟩
    rw [select_of_row_ne_height hrow hr, selectInRow_of_rle_full hfull]
  · intro hrow hmode hopen
    rw [select_of_row_ne_height (m := rleMode .rle4) hrow (hmode ▸ rfl), selectInRow_of_rle_open hopen]
  · intro hrow hmode hopen
    rw [select_of_row_ne_height (m := rleMode .rle8) hrow (hmode ▸ rfl), selectInRow_of_rle_open hopen]

/-- The two indices of an RLE4 encoded run are the high and the low nibble of its second byte (R71). -/
theorem encodedRun_rle4 (first second : Byte) :
    encodedRun .rle4 first second = .enc4 first (BitVec.ofNat 4 (second.toNat / 16)) (BitVec.ofNat 4 (second.toNat % 16)) := by
  have hhigh : second.extractLsb' 4 4 = BitVec.ofNat 4 (second.toNat / 16) := by
    rw [BitVec.extractLsb', Nat.shiftRight_eq_div_pow]
  have hlow : second.extractLsb' 0 4 = BitVec.ofNat 4 (second.toNat % 16) := by
    apply BitVec.eq_of_toNat_eq
    simp only [BitVec.extractLsb'_toNat, BitVec.toNat_ofNat, Nat.shiftRight_zero]
    omega
  rw [encodedRun, hhigh, hlow]

/-- The bytes at CUR where a token stands. -/
theorem TokenAt.drop_stream {first second : Byte} {s : State} (h : TokenAt first second s) :
    s.stream.drop s.cur = first :: second :: s.stream.drop (s.cur + 2) := by
  obtain ⟨hlt1, hfirst⟩ := List.getElem?_eq_some_iff.mp h.first
  obtain ⟨hlt2, hsecond⟩ := List.getElem?_eq_some_iff.mp h.second
  rw [List.drop_eq_getElem_cons hlt1, List.drop_eq_getElem_cons hlt2, hfirst, hsecond]

theorem TokenExpected.select_eq {r : Rle} {s : State} (h : TokenExpected r s) : select s = some (.token r) := by
  rw [select_of_running h.running, selectInRow_of_rle_open h.row_open]

/-- A token that is there: the step runs the operation of its class. -/
theorem TokenExpected.step_classify {r : Rle} {s : State} (h : TokenExpected r s) {first second : Byte} (hat : TokenAt first second s) :
    step s = exec (classify r first second) s := by
  have hd : decode (.token r) (s.stream.drop s.cur) = .ok (classify r first second, s.stream.drop (s.cur + 2)) := by
    rw [hat.drop_stream]; rfl
  rw [step_of_running h.running, decoderOperation_decoded h.select_eq hd]

/-- No byte of the token is there: the truncation at CUR. -/
theorem TokenExpected.step_no_byte {r : Rle} {s : State} (h : TokenExpected r s) (hend : s.stream.length ≤ s.cur) :
    step s = .next (raise .truncatedRleStream s.cur s) :=
  step_at_end h.running hend (selectInRow_of_rle_open h.row_open) rfl

/-- The token's first byte is the stream's last: the truncation at the second. -/
theorem TokenExpected.step_one_byte {r : Rle} {s : State} (h : TokenExpected r s) (hlast : s.stream.length = s.cur + 1) :
    step s = .next (raise .truncatedRleStream (s.cur + 1) s) := by
  have hd : decode (.token r) (s.stream.drop s.cur) = .error (.missingByte 1) := by
    rw [List.drop_eq_getElem_cons (by omega), List.drop_eq_nil_of_le (by omega)]; rfl
  rw [step_of_running h.running, decoderOperation_missing h.select_eq hd]
  rfl

/-- Settles O7: the step runs the class of the token at CUR, class by class, and a missing byte is the truncation at its offset. -/
theorem tokenIsFetchedAndClassified : Obligations.TokenIsFetchedAndClassified := by
  unfold Obligations.TokenIsFetchedAndClassified
  intro r s hexp
  refine ⟨fun first second hat => ?_, fun hend => ⟨_, hexp.step_no_byte hend, raise_faultedWith _ _ _⟩,
    fun hlast => ⟨_, hexp.step_one_byte hlast, raise_faultedWith _ _ _⟩⟩
  rw [hexp.step_classify hat]
  refine ⟨?_, ?_, ?_, ?_, ?_, ?_, ?_⟩
  · rintro hfirst rfl
    rw [classify_encoded _ _ hfirst, encodedRun_rle4]
  · rintro hfirst rfl
    rw [classify_encoded _ _ hfirst, encodedRun]
  · rintro rfl rfl
    rw [classify_eol]
  · rintro rfl rfl
    rw [classify_eob]
  · rintro rfl rfl
    rw [classify_delta]
  · rintro rfl hsecond rfl
    rw [classify_absolute _ hsecond, absoluteRun]
  · rintro rfl hsecond rfl
    rw [classify_absolute _ hsecond, absoluteRun]

end Sys2Proof.Machine

/-! ## The sequencer (R90, R94, R95)

START in IDLE is its body, which faults by the first test that fails or begins the decode; then when ROWEND and FINISH are selected and what they do. -/

namespace Sys2Proof.Machine

/-- START in its own phase, with a configuration to test (R90, R41). -/
theorem exec_start_of_idle {s : State} (hidle : s.phase = .idle) (hwritten : configWritten s = true) : exec .start s = .next (startDecode s) := by
  simp only [exec, execStart, hidle, hwritten, if_true]

theorem modeOf_isSome_iff {v : BitVec 3} : (modeOf v).isSome = true ↔ v.toNat < 6 := by
  rw [← Option.ne_none_iff_isSome, ne_eq, modeOf_eq_none, Nat.not_le]

/-- A reserved MODE is the first test, so it decides the kind whatever the sizes are. -/
theorem startFault_of_reserved_mode {s : State} (hmode : 6 ≤ s.mode.toNat) : startFault s = some .invalidFormatCombination := by
  simp only [startFault, modeOf_eq_none.mpr hmode, Option.isNone_none, if_true]

/-- After the test of MODE every test has one kind, so the order among them does not show. -/
theorem startFault_of_bad_size {s : State} (hmode : s.mode.toNat < 6)
    (hsize : s.height.msb = true ∨ s.width.msb = true ∨ s.maxWidth < s.width.toNat ∨ s.maxHeight < s.height.toNat) :
    startFault s = some .unsupportedFormat := by
  have hengine : (modeOf s.mode).isNone = false := Option.isNone_eq_false_iff.mpr (modeOf_isSome_iff.mpr hmode)
  simp only [startFault, hengine, Bool.false_eq_true, if_false]
  obtain hheight | hwidth | hlimit := hsize
  · rw [if_pos hheight]
  · rw [if_pos hwidth, ite_self]
  · rw [if_pos hlimit, ite_self, ite_self]

theorem startDecode_faultedWith {s : State} {k : ErrKind} (h : startFault s = some k) :
    FaultedWith k s.dataOffset.toNat s (startDecode s) := by
  rw [startDecode_fault h]
  exact .of_keeps (by constructor <;> rfl) (raise_faultedWith _ _ _)

/-- START writes no configuration register, whatever its tests say (R22). -/
theorem startDecode_keepsConfig (s : State) : KeepsConfig s (startDecode s) := by
  cases h : startFault s with
  | some k => exact (startDecode_faultedWith h).keeps
  | none => rw [startDecode_run h]; constructor <;> rfl

/-- The first row begins at the start of a decode as every row does after a commit. -/
theorem startDecode_rowBegun {s : State} (h : startFault s = none) : RowBegun (startDecode s) := by
  rw [startDecode_run h]
  exact ⟨rfl, rfl, rfl, fun _ => rfl⟩

/-- Settles O9: a failing test, in the order of R90, is a fault at DATA_OFFSET; when none fails the decode begins. -/
theorem startBeginsDecodeOrFaults : Obligations.StartBeginsDecodeOrFaults := by
  unfold Obligations.StartBeginsDecodeOrFaults
  intro s hidle hwritten
  rw [exec_start_of_idle hidle hwritten]
  refine ⟨fun hmode => ⟨_, rfl, startDecode_faultedWith (startFault_of_reserved_mode hmode)⟩,
    fun hmode hsize => ⟨_, rfl, startDecode_faultedWith (startFault_of_bad_size hmode hsize)⟩, ?_⟩
  intro hmode hheight hwidth hmaxWidth hmaxHeight
  have hpass : startFault s = none :=
    startFault_eq_none.mpr ⟨modeOf_isSome_iff.mpr hmode, hheight, hwidth, hmaxWidth, hmaxHeight⟩
  refine ⟨_, rfl, ?_, ?_, ?_, ?_, ?_, startDecode_rowBegun hpass, ?_, startDecode_keepsConfig s⟩
  all_goals rw [startDecode_run hpass]
  exact fun _ => rfl

/-- The modes that are not packed are the engines of the two RLE modes (R24). -/
theorem eq_rleMode_of_not_packed {m : Mode} (hm : isPacked m = false) : ∃ r, m = rleMode r := by
  cases m
  case depth4Rle => exact ⟨.rle4, rfl⟩
  case depth8Rle => exact ⟨.rle8, rfl⟩
  all_goals cases hm

/-- A row ends when its fillers are all skipped, or in an RLE mode when it is full (R72). -/
theorem selectInRow_rowend {m : Mode} {s : State}
    (h : (isPacked m = true ∧ s.sub = .pad ∧ s.padcnt = 0) ∨ (isPacked m = false ∧ s.width ≤ s.len)) : selectInRow m s = .rowend := by
  obtain ⟨hm, hsub, hpad⟩ | ⟨hm, hfull⟩ := h
  · exact selectInRow_of_no_fillers hm hsub hpad
  · obtain ⟨r, rfl⟩ := eq_rleMode_of_not_packed hm
    exact selectInRow_of_rle_full hfull

/-- ROWEND has no encoding, so a step that selects it runs it whatever stands in the stream. -/
theorem step_of_rowend {m : Mode} {s : State} (h : Running m s) (hsel : selectInRow m s = .rowend) : step s = exec .rowend s := by
  have hs : select s = some .rowend := by rw [select_of_running h, hsel]
  rw [step_of_running h, decoderOperation_decoded hs rfl]

/-- A run that would carry LEN past WIDTH faults, so in phase RUN a full row has exactly WIDTH pixels (R94). -/
theorem RunInv.len_eq_width {s : State} (h : RunInv s) (hfull : s.width ≤ s.len) : s.len = s.width :=
  BitVec.le_antisymm (BitVec.le_def.mpr h.len_le) hfull

/-- CommitRow where GRID has the row: ROWBUF's cells stand in grid row HEIGHT - 1 - ROW (R93). -/
theorem commitRow_rowCommitted {s : State} (hrow : s.row < s.height) : RowCommitted (fun c => s.rowbuf.read c) s (commitRow s) where
  row := row_succ hrow
  cells c v hc hv := by
    change (commitRow s).grid.read (gridBase s + c) = some v
    rw [commitRow_read, if_pos (by omega), Nat.add_sub_cancel_left, hv, Option.getD_some]
  others a ha := by
    change a < gridBase s ∨ gridBase s + s.width.toNat ≤ a at ha
    rw [commitRow_read, if_neg (by omega)]
  begun := commitRow_rowBegun s
  config := commitRow_keepsConfig s

theorem commitRow_keepsStatus (s : State) : KeepsStatus s (commitRow s) := ⟨rfl, rfl, rfl⟩

theorem exec_rowend_of_row_lt {s : State} (hrow : s.row < s.height) : exec .rowend s = .next (commitRow s) := by
  simp only [exec, execRowend, rowInGrid_iff.mpr hrow, if_true]

/-- Settles O12: the selection by R72, LEN = WIDTH by the invariant, and the effect by CommitRow's. -/
theorem rowendCommitsTheRow : Obligations.RowendCommitsTheRow := by
  unfold Obligations.RowendCommitsTheRow
  refine ⟨fun m s hrun hend => step_of_rowend hrun (selectInRow_rowend hend),
    fun m s hinv hrun _ hfull => (hinv.run hrun.phase).len_eq_width hfull, fun s hrow => ?_⟩
  exact ⟨_, exec_rowend_of_row_lt hrow, commitRow_rowCommitted hrow, rfl, commitRow_keepsStatus s⟩

/-- Settles O13: the first line of R72 selects FINISH, which has no encoding, so the stream is not looked at. -/
theorem finishEndsTheDecode : Obligations.FinishEndsTheDecode := by
  unfold Obligations.FinishEndsTheDecode
  refine ⟨fun s hquiet hphase hrow => ?_, fun s => rfl⟩
  rw [step_of_quiet hquiet, decoderTurn_run hphase, decoderOperation_decoded (select_of_row_eq_height hrow) rfl]

end Sys2Proof.Machine

/-! ## The row-padding scanner (R110, R111)

What a step runs once its operation is selected and decoded, then PADSET's count against each depth's own row bytes, and PADSKIP by Fetch's two outcomes. -/

namespace Sys2Proof.Machine

/-- A step of an incomplete image runs the operation decoded at CUR in the context the row selects. -/
theorem step_of_selected {m : Mode} {s : State} {c : Context} {i : Instr} {rest : List Byte} (h : Running m s)
    (hsel : selectInRow m s = c) (hd : decode c (s.stream.drop s.cur) = .ok (i, rest)) : step s = exec i s := by
  have hs : select s = some c := by rw [select_of_running h, hsel]
  rw [step_of_running h, decoderOperation_decoded hs hd]

/-- PADSET in a mode that selects an engine (R110). -/
theorem exec_padset {m : Mode} {s : State} (hm : modeOf s.mode = some m) :
    exec .padset s = .next { s with padcnt := BitVec.ofNat 2 (fillerCount (rowBytes (bitsPerPixel m) s.width)), sub := .pad } := by
  simp only [exec, execPadset, hm]

/-- PADCNT's two bits hold every filler count. -/
theorem toNat_ofNat_fillerCount (n : Nat) : (BitVec.ofNat 2 (fillerCount n)).toNat = (4 - n % 4) % 4 :=
  (BitVec.toNat_ofNat _ _).trans (Nat.mod_mod _ 4)

/-! `rowBytes` at each depth is the ceiling R110 lists for it. -/

theorem rowBytes_depth1 (width : Reg32) : rowBytes 1 width = (width.toNat + 7) / 8 := by
  rw [rowBytes, Nat.mul_one]

theorem rowBytes_depth2 (width : Reg32) : rowBytes 2 width = (width.toNat + 3) / 4 := by
  rw [rowBytes]; omega

theorem rowBytes_depth4 (width : Reg32) : rowBytes 4 width = (width.toNat + 1) / 2 := by
  rw [rowBytes]; omega

theorem rowBytes_depth8 (width : Reg32) : rowBytes 8 width = width.toNat := by
  rw [rowBytes]; omega

/-- Settles O17: the selection by its line of R72, the count by the row bytes of the mode's own depth. -/
theorem padsetCountsTheFillers : Obligations.PadsetCountsTheFillers := by
  unfold Obligations.PadsetCountsTheFillers
  refine ⟨fun m s hrun hm hsub hfull => step_of_selected hrun (selectInRow_of_packed_full hm hsub hfull) rfl, fun s n hdepth => ?_⟩
  obtain ⟨m, hm, hbytes⟩ : ∃ m, modeOf s.mode = some m ∧ rowBytes (bitsPerPixel m) s.width = n := by
    obtain ⟨hmode, rfl⟩ | ⟨hmode, rfl⟩ | ⟨hmode, rfl⟩ | ⟨hmode, rfl⟩ := hdepth
    · exact ⟨.depth1, hmode ▸ rfl, rowBytes_depth1 _⟩
    · exact ⟨.depth2, hmode ▸ rfl, rowBytes_depth2 _⟩
    · exact ⟨.depth4, hmode ▸ rfl, rowBytes_depth4 _⟩
    · exact ⟨.depth8, hmode ▸ rfl, rowBytes_depth8 _⟩
  exact ⟨_, exec_padset hm, hbytes ▸ toNat_ofNat_fillerCount _, rfl⟩

/-- Where a filler is expected the byte at CUR is taken for it, whatever its value (R76). -/
theorem decode_padskip_of_byte {s : State} {B : Byte} (hB : s.stream[s.cur]? = some B) :
    decode .padskip (s.stream.drop s.cur) = .ok (.padskip B, s.stream.drop (s.cur + 1)) := by
  obtain ⟨hlt, rfl⟩ := List.getElem?_eq_some_iff.mp hB
  rw [List.drop_eq_getElem_cons hlt]
  rfl

/-- PADSKIP with a filler byte left in the stream; its operand is not looked at (R111). -/
theorem exec_padskip_of_lt (B : Byte) {s : State} (hlt : s.cur < s.stream.length) :
    exec (.padskip B) s = .next { s with cur := s.cur + 1, padcnt := s.padcnt - 1 } := by
  simp only [exec, execPadskip, fetch_of_lt _ hlt, Flow.andThen]

/-- PADSKIP at the end of the stream is the truncation at CUR, as every Fetch is (R53, R192). -/
theorem exec_padskip_at_end (B : Byte) {s : State} (hend : s.stream.length ≤ s.cur) :
    exec (.padskip B) s = .next (raise .truncatedPixelData s.cur s) := by
  simp only [exec, execPadskip, fetch_end _ hend, Flow.andThen]

/-- Settles O18: the selection by its line of R72, the effect by Fetch's two outcomes. -/
theorem padskipSkipsOneFiller : Obligations.PadskipSkipsOneFiller := by
  unfold Obligations.PadskipSkipsOneFiller
  refine ⟨fun m s B hrun hm hsub hpad hB => ?_, fun s B => ⟨exec_padskip_of_lt B, fun hend => ?_⟩⟩
  · exact step_of_selected hrun (selectInRow_of_fillers hm hsub hpad) (decode_padskip_of_byte hB)
  · exact ⟨_, exec_padskip_at_end B hend, raise_faultedWith _ _ _⟩

end Sys2Proof.Machine

/-! ## The RLE escapes (R121, R122, R123)

Each escape begins with the token fetch, so the truncation of all three is one lemma. EOL commits the filled row; EOB does the same and fills the grid
below that row's base. -/

namespace Sys2Proof.Machine

/-- An operation that begins with the token fetch, where a byte of the token is missing: the truncation at the first missing byte (R73). -/
theorem token_truncated (k : Nat → State → Result) {s : State} (hend : s.stream.length < s.cur + 2) :
    ∃ t, (fetchToken s).andThen k = .next t ∧ FaultedWith .truncatedRleStream (max s.cur s.stream.length) s t := by
  obtain ⟨t, hraised, hfault, -⟩ := fetchToken_end hend
  exact ⟨t, by rw [hraised, Flow.andThen], hfault⟩

/-- EOL with its token in the stream and a row to produce (R121). -/
theorem exec_eol_of_token {s : State} (hcur : s.cur + 2 ≤ s.stream.length) (hrow : s.row < s.height) :
    exec .eol s = .next (commitRow (fillRow { s with cur := s.cur + 2 })) := by
  simp only [exec, execEol, fetchToken_go hcur, Flow.andThen, rowInGrid_iff (s := { s with cur := s.cur + 2 }).mpr hrow, if_true]

/-- EOB with its token in the stream and a row to produce (R122). -/
theorem exec_eob_of_token {s : State} (hcur : s.cur + 2 ≤ s.stream.length) (hrow : s.row < s.height) :
    exec .eob s = .next (endBitmap { s with cur := s.cur + 2 }) := by
  simp only [exec, execEob, fetchToken_go hcur, Flow.andThen, rowInGrid_iff (s := { s with cur := s.cur + 2 }).mpr hrow, if_true]

/-- DELTA with its token in the stream (R123). -/
theorem exec_delta_of_token {s : State} (hcur : s.cur + 2 ≤ s.stream.length) :
    exec .delta s = .next (raise .unsupportedRleEscape s.cur { s with cur := s.cur + 2 }) := by
  simp only [exec, execDelta, fetchToken_go hcur, Flow.andThen]

/-- The row that EOL and EOB commit, seen from the state before the token: index 0 from LEN on, ROWBUF's cells below. -/
theorem commitRow_fillRow_rowCommitted (n : Nat) {s : State} (hrow : s.row < s.height) :
    RowCommitted (fun c => if s.len.toNat ≤ c then some 0 else s.rowbuf.read c) s (commitRow (fillRow { s with cur := n })) := by
  have h := commitRow_rowCommitted (s := fillRow { s with cur := n }) hrow
  refine ⟨h.row, fun c v hc hv => h.cells c v hc ?_, h.others, h.begun, by constructor <;> rfl⟩
  rw [← hv, fillRow_read]
  exact if_congr (and_iff_left hc) rfl rfl

/-- Settles O20: the step runs the token's class, and EOL commits the filled row. -/
theorem eolFillsAndCommitsTheRow : Obligations.EolFillsAndCommitsTheRow := by
  unfold Obligations.EolFillsAndCommitsTheRow
  refine ⟨fun r s hexp hat => by rw [hexp.step_classify hat, classify_eol], fun s => ⟨fun hcur hrow => ?_, token_truncated _⟩⟩
  exact ⟨_, exec_eol_of_token hcur hrow, rfl, ⟨rfl, rfl, rfl⟩, commitRow_fillRow_rowCommitted _ hrow⟩

/-- Settles O21: EOB commits the filled row as EOL does, so its cells and those above it are that commit's, and fills every cell below the row's base. -/
theorem eobFillsTheGridAndEnds : Obligations.EobFillsTheGridAndEnds := by
  unfold Obligations.EobFillsTheGridAndEnds
  refine ⟨fun r s hexp hat => by rw [hexp.step_classify hat, classify_eob], fun s => ⟨fun hcur hrow => ?_, token_truncated _⟩⟩
  obtain ⟨rb, g, fr, heq, -, -, hunwritten, hread⟩ := endBitmap_eq (s := { s with cur := s.cur + 2 }) hrow
  have hrowdone := commitRow_fillRow_rowCommitted (s.cur + 2) hrow
  have hfrom (a : Nat) (ha : gridBase s ≤ a) : g.read a = (commitRow (fillRow { s with cur := s.cur + 2 })).grid.read a :=
    (hread a).trans (if_neg (Nat.not_lt.mpr ha))
  rw [exec_eob_of_token hcur hrow, heq]
  refine ⟨_, rfl, rfl, rfl, rfl, rfl, rfl, ⟨rfl, rfl, rfl, hunwritten⟩, by constructor <;> rfl, ?_, ?_, ?_, ?_⟩
  · exact fun c hlen hc => (hfrom _ (Nat.le_add_right _ _)).trans (hrowdone.cells c 0 hc (if_pos hlen))
  · exact fun c v hlen hc hv => (hfrom _ (Nat.le_add_right _ _)).trans (hrowdone.cells c v hc ((if_neg (Nat.not_le.mpr hlen)).trans hv))
  · exact fun a ha => (hread a).trans (if_pos ha)
  · exact fun a ha => (hfrom a (Nat.le_trans (Nat.le_add_right _ _) ha)).trans (hrowdone.others a (.inr ha))

/-- Settles O22: the offset is that of the token's first byte, which the fetch gives; no byte after the token is looked at. -/
theorem deltaFaultsAtItsToken : Obligations.DeltaFaultsAtItsToken := by
  unfold Obligations.DeltaFaultsAtItsToken
  refine ⟨fun r s hexp hat => by rw [hexp.step_classify hat, classify_delta], fun s => ⟨fun hcur => ?_, token_truncated _⟩⟩
  exact ⟨_, exec_delta_of_token hcur, .of_keeps (by constructor <;> rfl) (raise_faultedWith _ _ _)⟩

end Sys2Proof.Machine

/-! ## The RLE4 runs (R130, R131)

A run has counted its pixels before its length test, so what the run did and what the test makes of it are said apart: `RunCounted` is the state that
reaches the test, with room it is the pixels added and without room the fault at the token. -/

namespace Sys2Proof.Machine

/-- `t` is `s` after the pixels of a run and before its length test: `n` pixels are counted and `k` bytes fetched, and with room for them ROWBUF holds
the pixels from column LEN on (R34). -/
structure RunCounted (n k : Nat) (pixel : Nat → Option Byte) (s t : State) : Prop where
  eq : t = { s with cur := s.cur + k, len := s.len + BitVec.ofNat 32 n, rowbuf := t.rowbuf }
  cells : s.len.toNat + n ≤ s.width.toNat → ∀ c, t.rowbuf.read c =
    if s.len.toNat ≤ c ∧ c < s.len.toNat + n then pixel (c - s.len.toNat) else s.rowbuf.read c

/-- The cells of a run that fits are columns of the row, so the test of R34 drops none of them. -/
theorem RunCounted.of_read {n k : Nat} {pixel : Nat → Option Byte} {s t : State}
    (heq : t = { s with cur := s.cur + k, len := s.len + BitVec.ofNat 32 n, rowbuf := t.rowbuf })
    (hread : s.len.toNat + n < 2 ^ 32 → ∀ c, t.rowbuf.read c =
      if s.len.toNat ≤ c ∧ c < s.len.toNat + n ∧ c < s.width.toNat then pixel (c - s.len.toNat) else s.rowbuf.read c) :
    RunCounted n k pixel s t where
  eq := heq
  cells hroom c := by
    have hw := s.width.isLt
    rw [hread (by omega)]
    exact if_congr (by omega) rfl rfl

theorem RunCounted.keepsConfig {n k : Nat} {pixel : Nat → Option Byte} {s t : State} (h : RunCounted n k pixel s t) : KeepsConfig s t := by
  rw [h.eq]; constructor <;> rfl

theorem RunCounted.len_toNat {n k : Nat} {pixel : Nat → Option Byte} {s t : State} (h : RunCounted n k pixel s t)
    (hlen : s.len.toNat + n < 2 ^ 32) : t.len.toNat = s.len.toNat + n := by
  rw [h.eq]; exact Reg32.toNat_add_ofNat hlen

/-- A run with room passes the length test with its pixels added (R154). -/
theorem RunCounted.endRun_fits {n k : Nat} {pixel : Nat → Option Byte} {s t : State} (h : RunCounted n k pixel s t) (t0 : Nat)
    (hroom : s.len.toNat + n ≤ s.width.toNat) : ∃ u, endRun t0 t = .next u ∧ PixelsAdded n k pixel s u := by
  have hw := s.width.isLt
  have hlen := h.len_toNat (by omega)
  have hfits : rowOverrun t = false := by
    rw [rowOverrun, decide_eq_false_iff_not, BitVec.lt_def, h.keepsConfig.width]; omega
  refine ⟨t, by rw [endRun, hfits]; rfl, ?_, hlen, h.cells hroom, ?_, ?_, ?_, h.keepsConfig⟩ <;> rw [h.eq]
  · exact fun _ => rfl
  · exact ⟨rfl, rfl, rfl⟩
  · exact ⟨rfl, rfl, rfl⟩

/-- A run without room faults at its token. WIDTH is not negative, so the count of a token does not carry LEN past its 32 bits (R154). -/
theorem RunCounted.endRun_overrun {k : Nat} {n : Byte} {pixel : Nat → Option Byte} {s t : State} (h : RunCounted n.toNat k pixel s t) (t0 : Nat)
    (hopen : s.len < s.width) (hwidth : s.width.msb = false) (hover : s.width.toNat < s.len.toNat + n.toNat) :
    ∃ u, endRun t0 t = .next u ∧ FaultedWith .corruptRowLength t0 s u := by
  have hn := n.isLt
  have hw := BitVec.msb_eq_false_iff_two_mul_lt.mp hwidth
  have hopen : s.len.toNat < s.width.toNat := hopen
  have hlen := h.len_toNat (by omega)
  have hpast : rowOverrun t = true := by
    rw [rowOverrun, decide_eq_true_iff, BitVec.lt_def, h.keepsConfig.width]; omega
  exact ⟨_, by rw [endRun, hpast]; rfl, .of_keeps h.keepsConfig (raise_faultedWith _ _ _)⟩

/-- The loop of an encoded run, after the two bytes of its token. -/
theorem emitRun_runCounted (f : Nat → Byte) (n : Nat) (s : State) :
    RunCounted n 2 (fun i => some (f i)) s (emitRun f n 0 { s with cur := s.cur + 2 }) := by
  obtain ⟨rb, heq, -, hread⟩ := emitRun_spec f n 0 { s with cur := s.cur + 2 }
  rw [heq]
  simp only [Nat.zero_add] at hread
  exact .of_read rfl hread

/-- ENC4 with its token in the stream counts its pixels and comes to the length test (R130). -/
theorem exec_enc4_of_token (n : Byte) (p q : BitVec 4) {s : State} (hcur : s.cur + 2 ≤ s.stream.length) :
    exec (.enc4 n p q) s = endRun s.cur (emitRun (alternate p q) n.toNat 0 { s with cur := s.cur + 2 }) := by
  simp only [exec, execEnc4, fetchToken_go hcur, Flow.andThen]

/-- Settles O23: the step runs the token's class; the run's pixels are `alternate`'s, counted from the run's own start, and the length test has its two outcomes. -/
theorem enc4AddsAlternatingPixels : Obligations.Enc4AddsAlternatingPixels := by
  unfold Obligations.Enc4AddsAlternatingPixels
  refine ⟨fun s n second hexp hn hat => ?_, fun s n p q => ⟨fun hcur hroom => ?_, fun hcur hopen hwidth hover => ?_, token_truncated _⟩⟩
  · rw [hexp.step_classify hat, classify_encoded _ _ hn, encodedRun_rle4]
  · rw [exec_enc4_of_token n p q hcur]
    exact (emitRun_runCounted (alternate p q) n.toNat s).endRun_fits _ hroom
  · rw [exec_enc4_of_token n p q hcur]
    exact (emitRun_runCounted (alternate p q) n.toNat s).endRun_overrun _ hopen hwidth hover

/-- The two fields of a byte at 4 bits per pixel are its nibbles, the high one first (R75). -/
theorem field_four (j : Nat) : field 4 (j % 2) = if j % 2 = 0 then highNibble else lowNibble := by
  funext B
  apply BitVec.eq_of_toNat_eq
  obtain hj | hj := Nat.mod_two_eq_zero_or_one j
  · rw [hj, if_pos rfl]
    simp only [field, highNibble, BitVec.toNat_setWidth, BitVec.extractLsb'_toNat, BitVec.toNat_ofNat, Nat.shiftRight_eq_div_pow]
    omega
  · rw [hj, if_neg Nat.one_ne_zero]
    simp only [field, lowNibble, BitVec.toNat_setWidth, BitVec.extractLsb'_toNat, BitVec.toNat_ofNat, Nat.shiftRight_eq_div_pow]
    omega

/-- Pixel `i` of an absolute run whose token is at CUR: half of literal byte number `i / 2` (R131). -/
def literalNibble (s : State) (i : Nat) : Option Byte :=
  (s.stream[s.cur + 2 + i / 2]?).map (if i % 2 = 0 then highNibble else lowNibble)

/-- The loop of ABS4, after the two bytes of its token, with every literal byte in the stream. -/
theorem literals4_runCounted {n : Nat} {s : State} (hbytes : s.cur + 2 + (n + 1) / 2 ≤ s.stream.length) :
    ∃ t, literals4 n 0 0 { s with cur := s.cur + 2 } = .go () t ∧ RunCounted n (2 + (n + 1) / 2) (literalNibble s) s t := by
  obtain ⟨rb, hpixels, -, hread⟩ := literals4_go n 0 (s.cur + 2) 0 { s with cur := s.cur + 2 } rfl nofun (by rwa [Nat.zero_add])
  simp only [Nat.zero_add, field_four] at hpixels hread
  rw [Nat.add_assoc s.cur] at hpixels
  exact ⟨_, hpixels, .of_read rfl hread⟩

/-- The pad byte after a run's literal bytes, when it is there or not wanted, is one more byte fetched (R74). -/
theorem RunCounted.padByte_go {n k : Nat} {pixel : Nat → Option Byte} {s t : State} (h : RunCounted n k pixel s t) {nb : Nat}
    (hall : s.cur + k + nb % 2 ≤ s.stream.length) : ∃ u, padByte nb t = .go () u ∧ RunCounted n (k + nb % 2) pixel s u := by
  have hcur : t.cur = s.cur + k := by rw [h.eq]
  refine ⟨_, Machine.padByte_go nb t (by rw [hcur, h.keepsConfig.stream]; exact hall), ?_, h.cells⟩
  rw [hcur, Nat.add_assoc, h.eq]

/-- The pad byte when it is wanted and the stream ends before it. -/
theorem RunCounted.padByte_end {n k : Nat} {pixel : Nat → Option Byte} {s t : State} (h : RunCounted n k pixel s t) {nb : Nat}
    (hbytes : s.cur + k ≤ s.stream.length) (hend : s.stream.length < s.cur + k + nb % 2) :
    ∃ u, padByte nb t = .raised u ∧ FaultedWith .truncatedRleStream s.stream.length s u := by
  have hcur : t.cur = s.cur + k := by rw [h.eq]
  have hstream := h.keepsConfig.stream
  obtain ⟨u, hraised, hfault, -⟩ := Machine.padByte_end nb t (by rw [hcur, hstream]; exact hbytes) (by rw [hcur, hstream]; exact hend)
  exact ⟨u, hraised, .of_keeps h.keepsConfig (hstream ▸ hfault)⟩

/-- ABS4 with all its bytes in the stream counts its literal nibbles and comes to the length test (R131). -/
theorem exec_abs4_of_bytes {n : Byte} {s : State} (hall : s.cur + 2 + (n.toNat + 1) / 2 + (n.toNat + 1) / 2 % 2 ≤ s.stream.length) :
    ∃ t, exec (.abs4 n) s = endRun s.cur t ∧
      RunCounted n.toNat (2 + (n.toNat + 1) / 2 + (n.toNat + 1) / 2 % 2) (literalNibble s) s t := by
  obtain ⟨t, hpixels, hcounted⟩ := literals4_runCounted (n := n.toNat) (s := s) (by omega)
  obtain ⟨u, hpad, hcounted⟩ := hcounted.padByte_go (nb := (n.toNat + 1) / 2) (by omega)
  have htoken := fetchToken_go (s := s) (by omega)
  exact ⟨u, by simp only [exec, execAbs4, htoken, Flow.andThen, hpixels, hpad], hcounted⟩

/-- ABS4 with a byte missing: the truncation at the first missing byte, be it of the token, a literal byte or the pad byte. The length test is not
reached (R131, R161). -/
theorem exec_abs4_truncated {n : Byte} {s : State} (hend : s.stream.length < s.cur + 2 + (n.toNat + 1) / 2 + (n.toNat + 1) / 2 % 2) :
    ∃ t, exec (.abs4 n) s = .next t ∧ FaultedWith .truncatedRleStream (max s.cur s.stream.length) s t := by
  obtain htoken | hcur := Nat.lt_or_ge s.stream.length (s.cur + 2)
  · exact token_truncated _ htoken
  rw [Nat.max_eq_right (by omega)]
  simp only [exec, execAbs4, fetchToken_go hcur, Flow.andThen]
  obtain hliteral | hbytes := Nat.lt_or_ge s.stream.length (s.cur + 2 + (n.toNat + 1) / 2)
  · obtain ⟨t, hraised, hfault, -⟩ := literals4_end n.toNat 0 (s.cur + 2) 0 { s with cur := s.cur + 2 } rfl hcur (by rwa [Nat.zero_add])
    exact ⟨t, by rw [hraised], .of_keeps (by constructor <;> rfl) hfault⟩
  · obtain ⟨t, hpixels, hcounted⟩ := literals4_runCounted hbytes
    obtain ⟨u, hraised, hfault⟩ := hcounted.padByte_end (nb := (n.toNat + 1) / 2) (by omega) (by omega)
    exact ⟨u, by simp only [hpixels, hraised], hfault⟩

/-- Settles O25: the step runs the token's class; with all bytes there the length test has its two outcomes, and a missing byte is met before it. -/
theorem abs4AddsLiteralNibbles : Obligations.Abs4AddsLiteralNibbles := by
  unfold Obligations.Abs4AddsLiteralNibbles
  refine ⟨fun s n hexp hn hat => ?_, fun s n => ⟨fun hall hroom => ?_, fun hall hopen hwidth hover => ?_, exec_abs4_truncated⟩⟩
  · rw [hexp.step_classify hat, classify_absolute _ hn, absoluteRun]
  · obtain ⟨t, hexec, hcounted⟩ := exec_abs4_of_bytes hall
    rw [hexec]
    exact hcounted.endRun_fits _ hroom
  · obtain ⟨t, hexec, hcounted⟩ := exec_abs4_of_bytes hall
    rw [hexec]
    exact hcounted.endRun_overrun _ hopen hwidth hover

end Sys2Proof.Machine

/-! ## The RLE8 runs (R140, R141)

As with RLE4, each run is brought to its length test as a `RunCounted` state. What differs is the pixels: one index n times, or the literal bytes
themselves. -/

namespace Sys2Proof.Machine

/-- ENC8 with its token in the stream counts its pixels and comes to the length test (R140). -/
theorem exec_enc8_of_token (n v : Byte) {s : State} (hcur : s.cur + 2 ≤ s.stream.length) :
    exec (.enc8 n v) s = endRun s.cur (emitRun (fun _ => v) n.toNat 0 { s with cur := s.cur + 2 }) := by
  simp only [exec, execEnc8, fetchToken_go hcur, Flow.andThen]

/-- Settles O24: the step runs the token's class; every pixel of the run is the token's second byte, and the length test has its two outcomes. -/
theorem enc8AddsRepeatedPixels : Obligations.Enc8AddsRepeatedPixels := by
  unfold Obligations.Enc8AddsRepeatedPixels
  refine ⟨fun s n v hexp hn hat => ?_, fun s n v => ⟨fun hcur hroom => ?_, fun hcur hopen hwidth hover => ?_, token_truncated _⟩⟩
  · rw [hexp.step_classify hat, classify_encoded _ _ hn, encodedRun]
  · rw [exec_enc8_of_token n v hcur]
    exact (emitRun_runCounted (fun _ => v) n.toNat s).endRun_fits _ hroom
  · rw [exec_enc8_of_token n v hcur]
    exact (emitRun_runCounted (fun _ => v) n.toNat s).endRun_overrun _ hopen hwidth hover

/-- ABS8 with its token in the stream comes to its literal bytes (R141). -/
theorem exec_abs8_of_token (n : Byte) {s : State} (hcur : s.cur + 2 ≤ s.stream.length) :
    exec (.abs8 n) s = (literals8 n.toNat { s with cur := s.cur + 2 }).andThen fun _ t =>
      (padByte n.toNat t).andThen fun _ u => endRun s.cur u := by
  simp only [exec, execAbs8, fetchToken_go hcur, Flow.andThen]

/-- The loop of ABS8, after the two bytes of its token, with every literal byte in the stream: pixel `i` is literal byte number `i`, whatever its
value. -/
theorem literals8_runCounted {n : Nat} {s : State} (hbytes : s.cur + 2 + n ≤ s.stream.length) :
    ∃ t, literals8 n { s with cur := s.cur + 2 } = .go () t ∧ RunCounted n (2 + n) (fun i => s.stream[s.cur + 2 + i]?) s t := by
  obtain ⟨rb, hpixels, -, hread⟩ := literals8_go n { s with cur := s.cur + 2 } hbytes
  rw [Nat.add_assoc s.cur] at hpixels
  exact ⟨_, hpixels, .of_read rfl hread⟩

/-- ABS8 with all its bytes in the stream counts its literal bytes, passes over the pad byte and comes to the length test (R141). -/
theorem exec_abs8_of_bytes {n : Byte} {s : State} (hall : s.cur + 2 + n.toNat + n.toNat % 2 ≤ s.stream.length) :
    ∃ t, exec (.abs8 n) s = endRun s.cur t ∧
      RunCounted n.toNat (2 + n.toNat + n.toNat % 2) (fun i => s.stream[s.cur + 2 + i]?) s t := by
  obtain ⟨t, hpixels, hcounted⟩ := literals8_runCounted (n := n.toNat) (s := s) (by omega)
  obtain ⟨u, hpad, hcounted⟩ := hcounted.padByte_go (nb := n.toNat) (by omega)
  exact ⟨u, by simp only [exec_abs8_of_token n (s := s) (by omega), hpixels, hpad, Flow.andThen], hcounted⟩

/-- ABS8 with a byte missing: the truncation at the first missing byte, be it of the token, a literal byte or the pad byte. The length test is not
reached (R141, R161). -/
theorem exec_abs8_truncated {n : Byte} {s : State} (hend : s.stream.length < s.cur + 2 + n.toNat + n.toNat % 2) :
    ∃ t, exec (.abs8 n) s = .next t ∧ FaultedWith .truncatedRleStream (max s.cur s.stream.length) s t := by
  obtain htoken | hcur := Nat.lt_or_ge s.stream.length (s.cur + 2)
  · exact token_truncated _ htoken
  rw [Nat.max_eq_right (by omega), exec_abs8_of_token n hcur]
  obtain hliteral | hbytes := Nat.lt_or_ge s.stream.length (s.cur + 2 + n.toNat)
  · obtain ⟨t, hraised, hfault, -⟩ := literals8_end n.toNat { s with cur := s.cur + 2 } hcur hliteral
    exact ⟨t, by rw [hraised, Flow.andThen], .of_keeps (by constructor <;> rfl) hfault⟩
  · obtain ⟨t, hpixels, hcounted⟩ := literals8_runCounted hbytes
    obtain ⟨u, hraised, hfault⟩ := hcounted.padByte_end (nb := n.toNat) (by omega) (by omega)
    exact ⟨u, by simp only [hpixels, hraised, Flow.andThen], hfault⟩

/-- Settles O26: the step runs the token's class; with all bytes there the length test has its two outcomes, and a missing byte is met before it. -/
theorem abs8AddsLiteralBytes : Obligations.Abs8AddsLiteralBytes := by
  unfold Obligations.Abs8AddsLiteralBytes
  refine ⟨fun s n hexp hn hat => ?_, fun s n => ⟨fun hall hroom => ?_, fun hall hopen hwidth hover => ?_, exec_abs8_truncated⟩⟩
  · rw [hexp.step_classify hat, classify_absolute _ hn, absoluteRun]
  · obtain ⟨t, hexec, hcounted⟩ := exec_abs8_of_bytes hall
    rw [hexec]
    exact hcounted.endRun_fits _ hroom
  · obtain ⟨t, hexec, hcounted⟩ := exec_abs8_of_bytes hall
    rw [hexec]
    exact hcounted.endRun_overrun _ hopen hwidth hover

end Sys2Proof.Machine

/-! ## raise and what the host reads after it (R160)

What R160 says of the state after a raise follows from `FaultedWith` alone: PHASE is FAULT, so the decoder rests and CUR and GRID give no value, and
the frame carries the configuration and the empty ports over from the state before. -/

namespace Sys2Proof.Machine

theorem KeepsConfig.quiet {s t : State} (h : KeepsConfig s t) (hq : Quiet s) : Quiet t :=
  ⟨h.ctrl.trans hq.ctrl, h.inbox.trans hq.inbox⟩

/-- With the configuration kept the host reads the same in all four of its registers, be it a value or none (R40). -/
theorem KeepsConfig.hostRead_config {s t : State} (h : KeepsConfig s t) :
    hostRead .mode t = hostRead .mode s ∧ hostRead .width t = hostRead .width s ∧
      hostRead .height t = hostRead .height s ∧ hostRead .dataOffset t = hostRead .dataOffset s := by
  refine ⟨?mode, ?width, ?height, ?dataOffset⟩
  case mode => simp only [hostRead, h.mode, h.modeWritten]
  case width => simp only [hostRead, h.width, h.widthWritten]
  case height => simp only [hostRead, h.height, h.heightWritten]
  case dataOffset => simp only [hostRead, h.dataOffset, h.dataOffsetWritten]

/-- CUR is the host's to read in phase DONE only (R29). -/
theorem hostRead_cur_of_ne_done {s : State} (h : s.phase ≠ .done) : hostRead .cur s = none :=
  if_neg h

/-- GRID is the host's to read in phase DONE only (R56). -/
theorem hostRead_gridCell_of_ne_done {s : State} (h : s.phase ≠ .done) (r c : Nat) : hostRead (.gridCell r c) s = none :=
  if_neg fun hdone => h hdone.1

theorem hostRead_errOffset_of_ne_done {s : State} (h : s.phase ≠ .done) : hostRead .errOffset s = some s.errOffset :=
  if_neg h

section
variable {k : ErrKind} {off : Nat} {s t : State}

theorem FaultedWith.phase_ne_done (h : FaultedWith k off s t) : t.phase ≠ .done := by
  simp only [h.phase, ne_eq, reduceCtorEq, not_false_eq_true]

/-- The decoder has no operation in phase FAULT, so with no host move pending the block rests (R160, R202). -/
theorem FaultedWith.step_eq_self (h : FaultedWith k off s t) (hq : Quiet s) : step t = .next t :=
  step_of_quiet_not_run (h.keeps.quiet hq) (by simp only [h.phase, ne_eq, reduceCtorEq, not_false_eq_true])

theorem FaultedWith.hostRead_phase (h : FaultedWith k off s t) : hostRead .phase t = some 3 := by
  simp only [hostRead, h.phase, phaseCode]

theorem FaultedWith.hostRead_errKind (h : FaultedWith k off s t) : hostRead .errKind t = some (errCode k) := by
  simp only [hostRead, h.errKind]

theorem FaultedWith.hostRead_errOffset (h : FaultedWith k off s t) : hostRead .errOffset t = some off := by
  rw [hostRead_errOffset_of_ne_done h.phase_ne_done, h.errOffset]

end

/-- Settles O29: a raise leaves a `FaultedWith` state, and each clause is read off it. -/
theorem raiseRecordsKindAndOffset : Obligations.RaiseRecordsKindAndOffset := by
  unfold Obligations.RaiseRecordsKindAndOffset
  rintro k off s _ rfl
  have hfault := raise_faultedWith k off s
  obtain ⟨hmode, hwidth, hheight, hdataOffset⟩ := hfault.keeps.hostRead_config
  exact ⟨hfault, hfault.step_eq_self, hfault.hostRead_phase, hfault.hostRead_errKind, hfault.hostRead_errOffset,
    hmode, hwidth, hheight, hdataOffset, hostRead_cur_of_ne_done hfault.phase_ne_done, hostRead_gridCell_of_ne_done hfault.phase_ne_done⟩

end Sys2Proof.Machine

/-! ## The encoding (R71 to R79)

Decoding and encoding are inverse. The one case with content is the token: what `classify` gives is well formed, is decoded in a token context of its mode
and is encoded by the two bytes it was given. -/

namespace Sys2Proof

/-- With both bytes there a token decodes to its class (R73). -/
theorem decode_token_cons (r : Rle) (first second : Byte) (rest : List Byte) :
    decode (.token r) (first :: second :: rest) = .ok (classify r first second, rest) := rfl

/-- The token of an absolute run, in its own mode (R74). -/
theorem decode_token_absolute (r : Rle) {n : Byte} (hn : 3 ≤ n.toNat) (rest : List Byte) :
    decode (.token r) (0 :: n :: rest) = .ok (absoluteRun r n, rest) := by
  rw [decode_token_cons, classify_absolute r hn]

/-- The token of an encoded run, in its own mode (R71). -/
theorem decode_token_encoded (r : Rle) {n : Byte} (hn : 1 ≤ n.toNat) (second : Byte) (rest : List Byte) :
    decode (.token r) (n :: second :: rest) = .ok (encodedRun r n second, rest) := by
  have hne : n ≠ 0 := by rintro rfl; exact absurd hn (by decide)
  rw [decode_token_cons, classify_encoded r second hne]

/-- Settles O1: an operation without an operand and one of a single byte decode by their context alone; a token by its class, whose count the
well-formedness keeps out of the other classes. -/
theorem decodeOfEncode : Obligations.DecodeOfEncode := by
  unfold Obligations.DecodeOfEncode
  intro r i rest hwf
  cases i
  case abs4 n => exact decode_token_absolute .rle4 (of_decide_eq_true hwf) rest
  case abs8 n => exact decode_token_absolute .rle8 (of_decide_eq_true hwf) rest
  case enc4 n p q =>
    refine (decode_token_encoded .rle4 (of_decide_eq_true hwf) (p ++ q) rest).trans ?_
    rw [encodedRun, highNibble_append, lowNibble_append]
  case enc8 n v => exact decode_token_encoded .rle8 (of_decide_eq_true hwf) v rest
  all_goals rfl

/-- An operation is what the bytes of its encoding stand for in context `c`. -/
structure EncodedAs (c : Context) (bytes : List Byte) (i : Instr) : Prop where
  encoded : encode i = bytes
  wellFormed : i.wellFormed = true
  context : ∃ r, contextOf r i = c

theorem absoluteRun_encodedAs (r : Rle) {second : Byte} (h : 3 ≤ second.toNat) :
    EncodedAs (.token r) [0, second] (absoluteRun r second) := by
  cases r <;> exact ⟨rfl, decide_eq_true h, .rle4, rfl⟩

theorem encodedRun_encodedAs (r : Rle) {first : Byte} (h : first ≠ 0) (second : Byte) :
    EncodedAs (.token r) [first, second] (encodedRun r first second) := by
  have hcount : 1 ≤ first.toNat := Nat.pos_of_ne_zero fun hzero => h (BitVec.eq_of_toNat_eq hzero)
  cases r with
  | rle4 => exact ⟨by rw [encodedRun, encode, append_nibbles], decide_eq_true hcount, .rle4, rfl⟩
  | rle8 => exact ⟨rfl, decide_eq_true hcount, .rle8, rfl⟩

/-- The class of a token is the operation that the token encodes, in every one of the five classes (R73). -/
theorem classify_encodedAs (r : Rle) (first second : Byte) : EncodedAs (.token r) [first, second] (classify r first second) := by
  by_cases hfirst : first = 0
  · subst hfirst
    by_cases h0 : second = 0
    · subst h0; exact ⟨rfl, rfl, r, rfl⟩
    by_cases h1 : second = 1
    · subst h1; exact ⟨rfl, rfl, r, rfl⟩
    by_cases h2 : second = 2
    · subst h2; exact ⟨rfl, rfl, r, rfl⟩
    have hcount := three_le_of_ne h0 h1 h2
    rw [classify_absolute r hcount]
    exact absoluteRun_encodedAs r hcount
  · rw [classify_encoded r second hfirst]
    exact encodedRun_encodedAs r hfirst second

/-- A one-byte encoding decodes exactly where a byte is there, to the operation of that byte (R75, R76). -/
theorem decodeByte_eq_ok {mk : Byte → Instr} {bytes : List Byte} {i : Instr} {rest : List Byte} :
    decodeByte mk bytes = .ok (i, rest) ↔ ∃ b, bytes = b :: rest ∧ i = mk b := by
  cases bytes with
  | nil => simp [decodeByte]
  | cons b tail => simp [decodeByte, and_comm, eq_comm]

/-- A token decodes exactly where its two bytes are there, to its class (R73). -/
theorem decodeToken_eq_ok {r : Rle} {bytes : List Byte} {i : Instr} {rest : List Byte} :
    decodeToken r bytes = .ok (i, rest) ↔ ∃ first second, bytes = first :: second :: rest ∧ i = classify r first second := by
  match bytes with
  | [] => simp [decodeToken]
  | [_] => simp [decodeToken]
  | first :: second :: tail => simp [decodeToken, and_comm, eq_comm]

/-- The CTRL values that are a command (R77). -/
theorem decode_command_eq_ok {v : BitVec 2} {bytes : List Byte} {i : Instr} {rest : List Byte} (h : decode (.command v) bytes = .ok (i, rest)) :
    bytes = rest ∧ (v = 1 ∧ i = .start ∨ v = 2 ∧ i = .clear) := by
  simp only [decode] at h
  split at h
  · cases h; exact ⟨rfl, .inl ⟨‹_›, rfl⟩⟩
  · split at h
    · cases h; exact ⟨rfl, .inr ⟨‹_›, rfl⟩⟩
    · cases h

/-- What decodes is what the bytes taken encode. -/
theorem encodedAs_of_decode {c : Context} {bytes : List Byte} {i : Instr} {rest : List Byte} (h : decode c bytes = .ok (i, rest)) :
    ∃ taken, bytes = taken ++ rest ∧ EncodedAs c taken i := by
  cases c
  case command v =>
    obtain ⟨rfl, ⟨rfl, rfl⟩ | ⟨rfl, rfl⟩⟩ := decode_command_eq_ok h
    · exact ⟨[], rfl, rfl, rfl, .rle4, rfl⟩
    · exact ⟨[], rfl, rfl, rfl, .rle4, rfl⟩
  case token r =>
    obtain ⟨first, second, rfl, rfl⟩ := decodeToken_eq_ok.mp h
    exact ⟨[first, second], rfl, classify_encodedAs r first second⟩
  case finish | rowend | padset =>
    cases h; exact ⟨[], rfl, rfl, rfl, .rle4, rfl⟩
  all_goals
    obtain ⟨b, rfl, rfl⟩ := decodeByte_eq_ok.mp h
    exact ⟨[b], rfl, rfl, rfl, .rle4, rfl⟩

/-- Settles O2: context by context, the bytes taken are the encoding of what they decode to. -/
theorem encodeOfDecode : Obligations.EncodeOfDecode := by
  unfold Obligations.EncodeOfDecode
  intro c bytes i rest h
  obtain ⟨taken, rfl, rfl, hwf, hcontext⟩ := encodedAs_of_decode h
  exact ⟨rfl, hwf, hcontext⟩

/-- Settles O3: each word is one evaluation of the decoder. -/
theorem exactWordsDecode : Obligations.ExactWordsDecode := by
  unfold Obligations.ExactWordsDecode
  exact ⟨rfl, rfl, rfl, rfl, rfl, rfl, rfl, rfl, rfl, rfl, rfl, rfl⟩

end Sys2Proof

/-! ## Rows and packed bytes (R34, R93, R100 to R104, R112)

The shared operations Emit and CommitRow, the length of a stored row, and the one unpack of the four depths: its fields are the digits of the byte. -/

namespace Sys2Proof.Machine

/-- Settles O27: the cells by CommitRow's own lemma; CUR and the status are fields it does not write. -/
theorem commitRowPlacesTheRow : Obligations.CommitRowPlacesTheRow := by
  unfold Obligations.CommitRowPlacesTheRow
  exact fun s hrow => ⟨commitRow_rowCommitted hrow, rfl, commitRow_keepsStatus s⟩

/-- Settles O28: the cell written is the column LEN, and it is written where that is a column of the row. -/
theorem emitStoresWhileTheRowIsOpen : Obligations.EmitStoresWhileTheRowIsOpen := by
  unfold Obligations.EmitStoresWhileTheRowIsOpen
  refine fun v s => ⟨rfl, fun c => (emit_read v s c).trans (if_congr ?_ rfl rfl), rfl⟩
  exact and_congr_right fun hc => by rw [hc, BitVec.lt_def]

/-- The pixel bytes of a row and the fillers after them are the stored row (R112). The filler count makes any number of bytes a multiple of four, so
nothing depends on the depth. -/
theorem rowBytes_add_fillerCount (b : Nat) (width : Reg32) : rowBytes b width + fillerCount (rowBytes b width) = storedRow b width := by
  simp only [rowBytes, fillerCount, storedRow]
  omega

theorem fillerCount_le (n : Nat) : fillerCount n ≤ 3 := by
  rw [fillerCount]; omega

/-- Settles O19: the sum, then the bounds of a ceiling to four bytes. -/
theorem storedRowIsRowBytesAndFillers : Obligations.StoredRowIsRowBytesAndFillers := by
  unfold Obligations.StoredRowIsRowBytesAndFillers
  intro b width _
  refine ⟨rowBytes_add_fillerCount b width, fillerCount_le _, ?_⟩
  rw [storedRow]
  omega

/-- A field cut out of a byte is the digit of its value (R75). -/
theorem field_eq_packedPixel (b j : Nat) (B : Byte) : field b j B = packedPixel b j B := by
  apply BitVec.eq_of_toNat_eq
  simp only [field, packedPixel, BitVec.toNat_setWidth, BitVec.extractLsb'_toNat, BitVec.toNat_ofNat, Nat.shiftRight_eq_div_pow]

/-- The common scheme with its byte in the stream (R104). -/
theorem unpack_of_lt (b : Nat) (B : Byte) {s : State} (hcur : s.cur < s.stream.length) : ∃ t, unpack b B s = .next t ∧
    PixelsAdded (min (8 / b) (roomLeft s)) 1 (fun j => some (packedPixel b j B)) s t := by
  obtain ⟨rb, heq, -, hread⟩ := unpackFields_spec b B (8 / b) 0 { s with cur := s.cur + 1 }
  have hw := s.width.isLt
  have hroom : s.len.toNat + min (8 / b) (roomLeft s) < 2 ^ 32 := by rw [roomLeft]; omega
  let t : State := { s with cur := s.cur + 1, len := s.len + BitVec.ofNat 32 (min (8 / b) (roomLeft s)), rowbuf := rb }
  have hexec : unpack b B s = .next t := by
    simp only [unpack, fetch_of_lt _ hcur, Flow.andThen, heq]
    rfl
  refine ⟨t, hexec, rfl, Reg32.toNat_add_ofNat hroom, fun c => ?_, fun _ => rfl, ⟨rfl, rfl, rfl⟩, ⟨rfl, rfl, rfl⟩, by constructor <;> rfl⟩
  change rb.read c = _
  rw [hread c, Nat.zero_add, field_eq_packedPixel]
  rfl

/-- The common scheme at the end of the stream: the truncation at CUR (R53). -/
theorem unpack_at_end (b : Nat) (B : Byte) {s : State} (hend : s.stream.length ≤ s.cur) :
    unpack b B s = .next (raise .truncatedPixelData s.cur s) := by
  rw [unpack, fetch_end _ hend, Flow.andThen]

/-- Settles O15: each of the four operations is the common scheme at its own depth. -/
theorem unpackAddsTheFieldsOfOneByte : Obligations.UnpackAddsTheFieldsOfOneByte := by
  unfold Obligations.UnpackAddsTheFieldsOfOneByte
  intro i b hdepth s B
  have hexec : exec (i B) s = unpack b B s := by
    obtain ⟨rfl, rfl⟩ | ⟨rfl, rfl⟩ | ⟨rfl, rfl⟩ | ⟨rfl, rfl⟩ := hdepth <;> rfl
  rw [hexec]
  exact ⟨unpack_of_lt b B, fun hend => ⟨_, unpack_at_end b B hend, raise_faultedWith _ _ _⟩⟩

/-- In a packed mode with an open row the byte at CUR is unpacked at the mode's depth (R100 to R103). -/
theorem step_of_open_packed {m : Mode} {s : State} {B : Byte} (h : Running m s) (hm : isPacked m = true) (hsub : s.sub = .pixels)
    (hopen : s.len < s.width) (hB : s.stream[s.cur]? = some B) : step s = unpack (bitsPerPixel m) B s := by
  obtain ⟨hlt, rfl⟩ := List.getElem?_eq_some_iff.mp hB
  have hdecoded {i : Instr} (hd : decode (unpackContext m) (s.stream[s.cur] :: s.stream.drop (s.cur + 1)) = .ok (i, s.stream.drop (s.cur + 1))) :
      step s = exec i s :=
    step_of_selected h (selectInRow_of_open m hsub hopen) (by rw [List.drop_eq_getElem_cons hlt, hd])
  cases m
  case depth1 => exact hdecoded rfl
  case depth2 => exact hdecoded rfl
  case depth4 => exact hdecoded rfl
  case depth8 => exact hdecoded rfl
  all_goals cases hm

/-- Settles O16: the selection by the open row, and the mode names the operation. -/
theorem unpackIsSelectedByMode : Obligations.UnpackIsSelectedByMode := by
  unfold Obligations.UnpackIsSelectedByMode
  intro m s B hrun hsub hopen hB
  refine ⟨?depth1, ?depth2, ?depth4, ?depth8⟩
  case depth1 => rintro rfl; exact step_of_open_packed (m := .depth1) hrun rfl hsub hopen hB
  case depth2 => rintro rfl; exact step_of_open_packed (m := .depth2) hrun rfl hsub hopen hB
  case depth4 => rintro rfl; exact step_of_open_packed (m := .depth4) hrun rfl hsub hopen hB
  case depth8 => rintro rfl; exact step_of_open_packed (m := .depth8) hrun rfl hsub hopen hB

end Sys2Proof.Machine

/-! ## The invariant of the block (R39)

What each phase asks of a state is brought together once per phase; then every operation of the decoder keeps `RunInv`, enters DONE with every cell of GRID
written or raises, and every move of the host is a change of the ports or of a phase. -/

namespace Sys2Proof.Machine

/-! ### One phase at a time -/

theorem KeepsConfig.configWritten_eq {s t : State} (h : KeepsConfig s t) : configWritten t = configWritten s := by
  simp only [configWritten, h.modeWritten, h.widthWritten, h.heightWritten, h.dataOffsetWritten]

/-- A state of phase RUN meets the invariant by `RunInv` and what holds in every phase. -/
theorem Inv.of_run {s t : State} (h : Inv s) (hs : s.phase = .run) (hstatus : KeepsStatus s t) (hconfig : KeepsConfig s t)
    (hrowbuf : t.rowbuf.wf) (hgrid : t.grid.wf) (hrun : RunInv t) : Inv t where
  rowbuf_wf := hrowbuf
  grid_wf := hgrid
  no_fault _ := by rw [hstatus.errKind, hstatus.errOffset]; exact h.no_fault (by simp [hs])
  fault_kind hp := by simp [hstatus.phase, hs] at hp
  written _ := hconfig.configWritten_eq.trans (h.written (by simp [hs]))
  idle hp := by simp [hstatus.phase, hs] at hp
  run _ := hrun
  done hp := by simp [hstatus.phase, hs] at hp

/-- In phase DONE the status and the configuration are those of phase RUN. -/
theorem Inv.of_done {s t : State} (h : Inv s) (hs : s.phase = .run) (hphase : t.phase = .done) (herr : t.errKind = s.errKind)
    (hoff : t.errOffset = s.errOffset) (hconfig : KeepsConfig s t) (hrowbuf : t.rowbuf.wf) (hgrid : t.grid.wf) (hdone : DoneInv t) : Inv t where
  rowbuf_wf := hrowbuf
  grid_wf := hgrid
  no_fault _ := by rw [herr, hoff]; exact h.no_fault (by simp [hs])
  fault_kind hp := by simp [hphase] at hp
  written _ := hconfig.configWritten_eq.trans (h.written (by simp [hs]))
  idle hp := by simp [hphase] at hp
  run hp := by simp [hphase] at hp
  done _ := hdone

/-- In phase IDLE the configuration is free. -/
theorem Inv.of_idle {t : State} (hphase : t.phase = .idle) (herr : t.errKind = .none ∧ t.errOffset = 0) (hrowbuf : t.rowbuf.wf)
    (hgrid : t.grid.wf) (hidle : IdleInv t) : Inv t where
  rowbuf_wf := hrowbuf
  grid_wf := hgrid
  no_fault _ := herr
  fault_kind hp := by simp [hphase] at hp
  written hp := absurd hphase hp
  idle _ := hidle
  run hp := by simp [hphase] at hp
  done hp := by simp [hphase] at hp

theorem none_not_mem_raisedKinds : ErrKind.none ∉ raisedKinds := by decide

/-- A raise leaves a state of the invariant, whatever it was raised in. -/
theorem Raised.inv {s t : State} (h : Raised s t) (hwritten : configWritten s = true) : Inv t where
  rowbuf_wf := h.rowbuf_wf
  grid_wf := h.grid_wf
  no_fault hp := absurd h.phase hp
  fault_kind _ hnone := none_not_mem_raisedKinds (hnone ▸ h.kind)
  written _ := h.config.configWritten_eq.trans hwritten
  idle hp := by simp [h.phase] at hp
  run hp := by simp [h.phase] at hp
  done hp := by simp [h.phase] at hp

/-- A state with nothing written in its memories, outside RUN and DONE: what reset and CLEAR leave. -/
theorem Inv.of_cleared {t : State} (hphase : t.phase = .idle) (herr : t.errKind = .none ∧ t.errOffset = 0) (hrowbuf : t.rowbuf = [])
    (hgrid : t.grid = []) : Inv t :=
  .of_idle hphase herr (hrowbuf ▸ Memory.wf_nil) (hgrid ▸ Memory.wf_nil) ⟨fun _ => by rw [hrowbuf], fun _ => by rw [hgrid]⟩

/-! ### The ports -/

/-- The ports and the answer are no part of the invariant (log 8, log 16). -/
theorem RunInv.ports {s : State} (h : RunInv s) (c : Option (BitVec 2)) (box : List HostMove) (got : Option Nat) :
    RunInv { s with ctrl := c, inbox := box, answer := got } := { h with }

theorem DoneInv.ports {s : State} (h : DoneInv s) (c : Option (BitVec 2)) (box : List HostMove) (got : Option Nat) :
    DoneInv { s with ctrl := c, inbox := box, answer := got } := { h with }

theorem Inv.ports {s : State} (h : Inv s) (c : Option (BitVec 2)) (box : List HostMove) (got : Option Nat) :
    Inv { s with ctrl := c, inbox := box, answer := got } :=
  { h with
    idle := fun hp => { h.idle hp with }
    run := fun hp => (h.run hp).ports c box got
    done := fun hp => (h.done hp).ports c box got }

/-! ### The operations of the decoder -/

/-- In a packed mode SUB is PIXELS while the row is open; in an RLE mode it is always (R32). -/
theorem RunInv.sub_pixels_of_open {s : State} (h : RunInv s) (hopen : s.len < s.width) : s.sub = .pixels := by
  cases hsub : s.sub with
  | pixels => rfl
  | pad => rw [h.pad_row_full hsub] at hopen; exact absurd hopen (BitVec.lt_irrefl _)

/-- Pixels added to an open row keep the columns below LEN written and no other (R33). -/
theorem Grown.rowbuf_written {b n c : Nat} {s t : State} (hg : Grown b n c s t) (h : RunInv s) (i : Nat) :
    (t.rowbuf.read i).isSome ↔ i < t.len.toNat := by
  have hlen := hg.len
  by_cases hi : s.len.toNat ≤ i ∧ i < s.len.toNat + n
  · obtain ⟨v, hv, -⟩ := hg.new i hi.1 hi.2
    rw [hv, Option.isSome_some]
    exact iff_of_true rfl (by omega)
  · rw [hg.old i (by omega), h.rowbuf_written i]
    omega

/-- An operation that adds pixels to an open row, up to a place in the stream that it has read. -/
theorem RunInv.of_grown {b n c : Nat} {s t : State} (h : RunInv s) (hg : Grown b n c s t) (hrow : s.row ≠ s.height) (hopen : s.len < s.width)
    (hcur : s.cur ≤ c) (hc : c ≤ s.stream.length) : RunInv t := by
  have hsub := h.sub_pixels_of_open hopen
  have hwritten := hg.rowbuf_written h
  have hfits := hg.fits
  have hge := h.cur_ge
  rw [hg.eq] at hwritten hfits ⊢
  exact { h with
    len_le := hfits
    rowbuf_written := hwritten
    pad_row_full := fun hpad => by simp [hsub] at hpad
    cur_ge := Nat.le_trans hge hcur
    cur_le := .inl hc
    row_complete := fun heq => absurd heq hrow }

/-- CommitRow after any change of CUR within the stream and of ROWBUF: what ROWEND and EOL do. -/
theorem RunInv.of_commitRow {s : State} (h : RunInv s) (hrow : s.row < s.height) (c : Nat) (rb : Memory) (hge : s.dataOffset.toNat ≤ c)
    (hle : c ≤ s.stream.length ∨ c = s.dataOffset.toNat) : RunInv (commitRow { s with cur := c, rowbuf := rb }) := by
  have hsucc : (s.row + 1).toNat = s.row.toNat + 1 := row_succ hrow
  have hlt : s.row.toNat < s.height.toNat := hrow
  exact { h with
    row_le := by rw [commitRow_row, hsucc]; exact hlt
    len_le := Nat.zero_le _
    rowbuf_written := fun i => by simp
    grid_written := fun a => by
      rw [commitRow_row, hsucc]
      exact commitRow_grid_written (s := { s with cur := c, rowbuf := rb }) hrow h.grid_written a
    pad_row_full := fun hpad => by simp at hpad
    pad_packed := fun hpad => by simp at hpad
    pixels_no_pad := fun _ => rfl
    cur_ge := hge
    cur_le := hle
    row_complete := fun _ => ⟨rfl, rfl⟩
    pad_count := fun _ _ hpad => by simp at hpad }

/-- PADSET on a full row (R110). -/
theorem RunInv.of_padset {s : State} {m : Mode} (h : RunInv s) (hm : modeOf s.mode = some m) (hp : isPacked m = true) (hrow : s.row ≠ s.height)
    (hfull : s.width ≤ s.len) :
    RunInv { s with padcnt := BitVec.ofNat 2 (fillerCount (rowBytes (bitsPerPixel m) s.width)), sub := .pad } :=
  { h with
    pad_row_full := fun _ => h.len_eq_width hfull
    pad_packed := fun _ => ⟨m, hm, hp⟩
    pixels_no_pad := fun hsub => by simp at hsub
    row_complete := fun heq => absurd heq hrow
    pad_count := fun m' hm' _ => by
      obtain rfl : m = m' := Option.some.inj (hm.symm.trans hm')
      exact (toNat_ofNat_fillerCount _).le }

/-- PADCNT counts down without wrap while it is not 0. -/
theorem toNat_padcnt_pred {p : BitVec 2} (hp : p ≠ 0) : (p - 1).toNat = p.toNat - 1 := by
  revert p; decide

/-- PADSKIP with a filler left (R111). -/
theorem RunInv.of_padskip {s : State} (h : RunInv s) (hrow : s.row ≠ s.height) (hsub : s.sub = .pad) (hpad : s.padcnt ≠ 0)
    (hcur : s.cur < s.stream.length) : RunInv { s with cur := s.cur + 1, padcnt := s.padcnt - 1 } :=
  { h with
    pixels_no_pad := fun hpixels => by simp [hsub] at hpixels
    cur_ge := Nat.le_succ_of_le h.cur_ge
    cur_le := .inl hcur
    row_complete := fun heq => absurd heq hrow
    pad_count := fun m hm _ => by
      rw [toNat_padcnt_pred hpad]
      exact Nat.le_trans (Nat.sub_le _ _) (h.pad_count m hm hsub) }

/-- FINISH finds every row produced, so every cell of GRID is written (R95). -/
theorem RunInv.done_of_finish {s : State} (h : RunInv s) (hrow : s.row = s.height) : DoneInv { s with phase := .done } where
  mode := h.mode
  row_eq := hrow
  grid_full a := by
    rw [h.grid_written a, hrow, Nat.sub_self, Nat.zero_mul]
    exact and_iff_right (Nat.zero_le a)
  cur_ge := h.cur_ge

/-- EOB writes what is left of GRID: the row it commits and every cell below it (R122). -/
theorem RunInv.done_of_endBitmap {s : State} (h : RunInv s) (hrow : s.row < s.height) (c : Nat) (hge : s.dataOffset.toNat ≤ c) :
    DoneInv (endBitmap { s with cur := c }) := by
  obtain ⟨rb, g, fr, heq, -, -, -, hread⟩ := endBitmap_eq (s := { s with cur := c }) hrow
  have hwritten := commitRow_grid_written (s := fillRow { s with cur := c }) hrow h.grid_written
  have hbase : gridBase s = (s.height.toNat - (s.row.toNat + 1)) * s.width.toNat := by rw [gridBase]; congr 1; omega
  have hlast : gridBase s ≤ s.height.toNat * s.width.toNat := hbase ▸ Nat.mul_le_mul_right _ (Nat.sub_le _ _)
  have hread (a : Nat) : g.read a = if a < gridBase s then some 0 else (commitRow (fillRow { s with cur := c })).grid.read a := hread a
  rw [heq]
  refine ⟨h.mode, rfl, fun a => ?_, hge⟩
  change (g.read a).isSome ↔ a < s.height.toNat * s.width.toNat
  rw [hread a]
  by_cases ha : a < gridBase s
  · rw [if_pos ha, Option.isSome_some]
    exact iff_of_true rfl (Nat.lt_of_lt_of_le ha hlast)
  · rw [if_neg ha, hwritten a]
    change (s.height.toNat - (s.row.toNat + 1)) * s.width.toNat ≤ a ∧ a < s.height.toNat * s.width.toNat ↔ _
    exact and_iff_right (hbase ▸ Nat.not_lt.mp ha)

/-- In a state of the invariant a turn of the decoder is one of the nine cases of `DecoderStep`. -/
theorem RunInv.decoderStep {s t : State} (h : RunInv s) (hd : decoderOperation s = .next t) : DecoderStep s t :=
  decoderOperation_cases h.width_legal.1 h.len_le hd

/-- Everything an operation of the decoder does in phase RUN keeps the invariant. -/
theorem Inv.of_decoderStep {s t : State} (h : Inv s) (hs : s.phase = .run) (hstep : DecoderStep s t) : Inv t := by
  have hrun := h.run hs
  have hrowbuf := h.rowbuf_wf
  have hgrid := h.grid_wf
  have hge := hrun.cur_ge
  cases hstep with
  | raised hr => exact hr.inv (h.written (by simp [hs]))
  | finish hrow => exact h.of_done hs rfl rfl rfl (by constructor <;> rfl) hrowbuf hgrid (hrun.done_of_finish hrow)
  | rowend m hm hrow hdone =>
    exact h.of_run hs ⟨rfl, rfl, rfl⟩ (commitRow_keepsConfig s) Memory.wf_nil (commitRow_grid_wf s hgrid)
      (hrun.of_commitRow hrow s.cur s.rowbuf hge hrun.cur_le)
  | padset m hm hp hrow hsub hfull =>
    exact h.of_run hs ⟨rfl, rfl, rfl⟩ (by constructor <;> rfl) hrowbuf hgrid (hrun.of_padset hm hp hrow hfull)
  | padskip m hm hp hrow hsub hpad hcur =>
    exact h.of_run hs ⟨rfl, rfl, rfl⟩ (by constructor <;> rfl) hrowbuf hgrid (hrun.of_padskip hrow hsub hpad hcur)
  | unpack m hm hp hrow hsub hopen hcur hg =>
    have hrun' := hrun.of_grown hg hrow hopen (Nat.le_succ _) hcur
    have hwf := hg.wf hrowbuf
    rw [hg.eq] at hrun' hwf ⊢
    exact h.of_run hs ⟨rfl, rfl, rfl⟩ (by constructor <;> rfl) hwf hgrid hrun'
  | run r n c hm hrow hopen hcur hc hg =>
    have hrun' := hrun.of_grown hg hrow hopen (by omega) hc
    have hwf := hg.wf hrowbuf
    rw [hg.eq] at hrun' hwf ⊢
    exact h.of_run hs ⟨rfl, rfl, rfl⟩ (by constructor <;> rfl) hwf hgrid hrun'
  | eol r hm hrow hopen hcur ht =>
    exact h.of_run hs ⟨rfl, rfl, rfl⟩ (by constructor <;> rfl) Memory.wf_nil (commitRow_grid_wf (fillRow { s with cur := s.cur + 2 }) hgrid)
      (hrun.of_commitRow hrow (s.cur + 2) _ (by omega) (.inl hcur))
  | eob r hm hrow hopen hcur ht =>
    have hdone := hrun.done_of_endBitmap hrow (s.cur + 2) (by omega)
    obtain ⟨rb, g, fr, heq, hrb, hg, -⟩ := endBitmap_eq (s := { s with cur := s.cur + 2 }) hrow
    rw [heq] at hdone ⊢
    exact h.of_done hs rfl rfl rfl (by constructor <;> rfl) hrb (hg hgrid) hdone

/-! ### START -/

theorem startFault_mem_raisedKinds {s : State} {k : ErrKind} (h : startFault s = some k) : k ∈ raisedKinds := by
  unfold startFault at h
  split_ifs at h <;> cases h <;> decide

/-- START that passes its tests begins the first row of an empty grid (R90). -/
theorem startDecode_runInv {s : State} (h : startFault s = none) : RunInv (startDecode s) := by
  obtain ⟨hmode, hheight, hwidth, hmaxWidth, hmaxHeight⟩ := startFault_eq_none.mp h
  have hw := BitVec.msb_eq_false_iff_two_mul_lt.mp hwidth
  have hh := BitVec.msb_eq_false_iff_two_mul_lt.mp hheight
  rw [startDecode_run h]
  exact {
    mode := hmode
    width_legal := ⟨by change s.width.toNat < _; omega, hmaxWidth⟩
    height_legal := ⟨by change s.height.toNat < _; omega, hmaxHeight⟩
    row_le := Nat.zero_le _
    len_le := Nat.zero_le _
    rowbuf_written := fun i => by simp
    grid_written := fun a => by simp
    pad_row_full := fun hpad => by simp at hpad
    pad_packed := fun hpad => by simp at hpad
    pixels_no_pad := fun _ => rfl
    cur_ge := Nat.le_refl _
    cur_le := .inr rfl
    row_complete := fun _ => ⟨rfl, rfl⟩
    pad_count := fun _ _ hpad => by simp at hpad }

theorem startDecode_inv {s : State} (hwritten : configWritten s = true) : Inv (startDecode s) := by
  cases h : startFault s with
  | some k =>
    rw [startDecode_fault h]
    exact (raise_raised (startFault_mem_raisedKinds h) _ (by constructor <;> rfl : KeepsConfig s _)).inv hwritten
  | none =>
    have hrun := startDecode_runInv h
    rw [startDecode_run h] at hrun ⊢
    exact {
      rowbuf_wf := Memory.wf_nil
      grid_wf := Memory.wf_nil
      no_fault := fun _ => ⟨rfl, rfl⟩
      fault_kind := fun hp => by simp at hp
      written := fun _ => hwritten
      idle := fun hp => by simp at hp
      run := fun _ => hrun
      done := fun hp => by simp at hp }

/-! ### The host's moves -/

/-- A write of a configuration register in phase IDLE (R22). -/
theorem Inv.of_configWrite {s t : State} (h : Inv s) (hs : s.phase = .idle) (hphase : t.phase = s.phase) (hkind : t.errKind = s.errKind)
    (hoff : t.errOffset = s.errOffset) (hrowbuf : t.rowbuf = s.rowbuf) (hgrid : t.grid = s.grid) : Inv t := by
  obtain ⟨hrowbuf', hgrid'⟩ := h.idle hs
  refine .of_idle (hphase.trans hs) ?_ (hrowbuf ▸ h.rowbuf_wf) (hgrid ▸ h.grid_wf) ⟨hrowbuf ▸ hrowbuf', hgrid ▸ hgrid'⟩
  rw [hkind, hoff]
  exact h.no_fault (by simp [hs])

/-- The stream is read in phase RUN only, and is not attached in it (R52). -/
theorem Inv.of_attach {s : State} (h : Inv s) (hs : s.phase ≠ .run) (bytes : List Byte) (box : List HostMove) :
    Inv { s with inbox := box, stream := bytes } :=
  { h with
    idle := fun hp => { h.idle hp with }
    run := fun hp => absurd hp hs
    done := fun hp => { h.done hp with } }

/-- Settles O36: the decoder's operations by `Inv.of_decoderStep`, START by its tests, and the host's moves, none of which touches a register of a
decode but to end it. -/
theorem stepKeepsInvariant : Obligations.StepKeepsInvariant := by
  unfold Obligations.StepKeepsInvariant
  intro s t h hstep
  cases step_cases hstep with
  | ignored v hc => exact h.ports none s.inbox s.answer
  | start hc hp hw => exact startDecode_inv hw
  | clear hc hp => exact .of_cleared rfl ⟨rfl, rfl⟩ rfl rfl
  | decoder box hc hp hd =>
    have hbox := h.ports s.ctrl box s.answer
    exact hbox.of_decoderStep hp ((hbox.run hp).decoderStep hd)
  | nothing box got hc => exact h.ports s.ctrl box got
  | writeMode v rest hc hp hi => exact h.of_configWrite hp rfl rfl rfl rfl rfl
  | writeWidth v rest hc hp hi => exact h.of_configWrite hp rfl rfl rfl rfl rfl
  | writeHeight v rest hc hp hi => exact h.of_configWrite hp rfl rfl rfl rfl rfl
  | writeDataOffset v rest hc hp hi => exact h.of_configWrite hp rfl rfl rfl rfl rfl
  | attach bytes rest hc hp hi => exact h.of_attach hp bytes rest
  | writeCtrl v rest hc hi => exact h.ports (some v) rest s.answer
  | reset rest hc hi => exact .of_cleared rfl ⟨rfl, rfl⟩ rfl rfl

/-- Settles O35: at reset the block is in phase IDLE with its memories unwritten, and the range and the position speak of other phases. -/
theorem resetMeetsInvariants : Obligations.ResetMeetsInvariants := by
  unfold Obligations.ResetMeetsInvariants
  refine ⟨.of_cleared rfl ⟨rfl, rfl⟩ rfl rfl, fun m _ => ⟨?_, ?_⟩, fun m _ _ => ⟨?_, ?_⟩⟩
  · exact fun hrun => by simp [State.reset] at hrun
  · exact fun hphase => by simp [State.reset] at hphase
  · exact fun hrun => by simp [State.reset] at hrun
  · exact fun hdone => by simp [State.reset] at hdone

end Sys2Proof.Machine

/-! ## The range of the indices (R36)

A memory whose cells are all below a bound keeps it under every write of the block: the new pixels are below 2^b by the operation that made them, the fill is
index 0, and a commit copies cells that the invariant says are written. -/

namespace Sys2Proof.Machine

/-- No operation of the decoder writes the configuration (R22). -/
theorem DecoderStep.keepsConfig {s t : State} (h : DecoderStep s t) : KeepsConfig s t := by
  cases h with
  | raised hr => exact hr.config
  | unpack m hm hp hrow hsub hopen hcur hg => rw [hg.eq]; constructor <;> rfl
  | run r n c hm hrow hopen hcur hc hg => rw [hg.eq]; constructor <;> rfl
  | eob r hm hrow hopen hcur ht =>
    obtain ⟨hfill, -⟩ := fillRows_keeps (s.height.toNat - s.row.toNat) { s with cur := s.cur + 2 }
    exact KeepsConfig.trans (by constructor <;> rfl) (hfill.trans (by constructor <;> rfl))
  | _ => constructor <;> rfl

/-- Every cell that a memory holds is below `n`. -/
def CellsBelow (n : Nat) (m : Memory) : Prop :=
  ∀ a v, m.read a = some v → v.toNat < n

theorem indicesInRange_iff {s : State} : IndicesInRange s ↔ ∀ m, modeOf s.mode = some m →
    (s.phase = .run → CellsBelow (2 ^ bitsPerPixel m) s.rowbuf) ∧ (s.phase = .run ∨ s.phase = .done → CellsBelow (2 ^ bitsPerPixel m) s.grid) :=
  Iff.rfl

/-- In phases IDLE and FAULT nothing is said of the memories. -/
theorem indicesInRange_of_phase {t : State} (hphase : t.phase = .idle ∨ t.phase = .fault) : IndicesInRange t := by
  refine indicesInRange_iff.mpr fun m _ => ⟨fun hrun => ?_, fun hboth => ?_⟩
  · simp [hrun] at hphase
  · obtain hp | hp := hboth <;> simp [hp] at hphase

theorem CellsBelow.of_unwritten {n : Nat} {m : Memory} (h : SameCells [] m) : CellsBelow n m := fun a v hv => by
  rw [h a] at hv; cases hv

theorem CellsBelow.nil (n : Nat) : CellsBelow n [] := .of_unwritten fun _ => rfl

/-- The fill is index 0, which every mode has (R121). -/
theorem CellsBelow.fillRow {n : Nat} {s : State} (hn : 0 < n) (hbuf : CellsBelow n s.rowbuf) : CellsBelow n (fillRow s).rowbuf := by
  intro c v hv
  rw [fillRow_read] at hv
  split at hv
  · cases hv; exact hn
  · exact hbuf c v hv

/-- A commit of a row whose columns are all written copies ROWBUF's cells (R93). -/
theorem CellsBelow.commitRow {n : Nat} {s : State} (hbuf : CellsBelow n s.rowbuf) (hgrid : CellsBelow n s.grid)
    (hfull : ∀ c, c < s.width.toNat → (s.rowbuf.read c).isSome) : CellsBelow n (commitRow s).grid := by
  intro a v hv
  rw [commitRow_read] at hv
  split at hv
  · obtain ⟨w, hw⟩ := Option.isSome_iff_exists.mp (hfull (a - gridBase s) (by omega))
    rw [hw, Option.getD_some, Option.some.injEq] at hv
    exact hv ▸ hbuf _ w hw
  · exact hgrid a v hv

/-- The pixels of an operation are below 2^b. -/
theorem Grown.cellsBelow {b n c : Nat} {s t : State} (hg : Grown b n c s t) (hbuf : CellsBelow (2 ^ b) s.rowbuf) :
    CellsBelow (2 ^ b) t.rowbuf := by
  intro i v hv
  by_cases hi : s.len.toNat ≤ i ∧ i < s.len.toNat + n
  · obtain ⟨w, hw, hlt⟩ := hg.new i hi.1 hi.2
    obtain rfl : w = v := Option.some.inj (hw.symm.trans hv)
    exact hlt
  · rw [hg.old i (by omega)] at hv
    exact hbuf i v hv

/-- A full row has every column written (R33). -/
theorem RunInv.row_written {s : State} (h : RunInv s) (hfull : s.width ≤ s.len) (c : Nat) (hc : c < s.width.toNat) :
    (s.rowbuf.read c).isSome :=
  (h.rowbuf_written c).mpr (Nat.lt_of_lt_of_le hc hfull)

/-- The fill leaves no column unwritten (R121). -/
theorem RunInv.fillRow_written {s : State} (h : RunInv s) (c : Nat) (hc : c < s.width.toNat) : ((fillRow s).rowbuf.read c).isSome := by
  rw [fillRow_read]
  by_cases hlen : s.len.toNat ≤ c
  · rw [if_pos ⟨hlen, hc⟩, Option.isSome_some]
  · rw [if_neg (fun hand => hlen hand.1)]
    exact (h.rowbuf_written c).mpr (Nat.not_le.mp hlen)

/-- ROWEND is selected with a full row only: in a packed mode SUB is PAD then (R39). -/
theorem RunInv.full_of_rowend {s : State} {m : Mode} (h : RunInv s)
    (hdone : (isPacked m = true ∧ s.sub = .pad ∧ s.padcnt = 0) ∨ (isPacked m = false ∧ s.width ≤ s.len)) : s.width ≤ s.len := by
  obtain ⟨-, hsub, -⟩ | ⟨-, hfull⟩ := hdone
  · exact (h.pad_row_full hsub).symm ▸ BitVec.le_refl _
  · exact hfull

/-- An operation of the decoder that does not raise keeps both memories below 2^b. -/
theorem DecoderStep.cellsBelow {s t : State} {m : Mode} (h : DecoderStep s t) (hrun : RunInv s) (hm : modeOf s.mode = some m)
    (hbuf : CellsBelow (2 ^ bitsPerPixel m) s.rowbuf) (hgrid : CellsBelow (2 ^ bitsPerPixel m) s.grid) :
    t.phase = .fault ∨ (CellsBelow (2 ^ bitsPerPixel m) t.rowbuf ∧ CellsBelow (2 ^ bitsPerPixel m) t.grid) := by
  have hsame {m' : Mode} (hm' : modeOf s.mode = some m') : m = m' := Option.some.inj (hm.symm.trans hm')
  have hfilled (c : Nat) : CellsBelow (2 ^ bitsPerPixel m) (commitRow (fillRow { s with cur := c })).grid :=
    .commitRow (.fillRow (Nat.two_pow_pos _) hbuf) hgrid hrun.fillRow_written
  cases h with
  | raised hr => exact .inl hr.phase
  | finish hrow => exact .inr ⟨hbuf, hgrid⟩
  | rowend m' hm' hrow hdone => exact .inr ⟨.nil _, hbuf.commitRow hgrid (hrun.row_written (hrun.full_of_rowend hdone))⟩
  | padset m' hm' hp hrow hsub hfull => exact .inr ⟨hbuf, hgrid⟩
  | padskip m' hm' hp hrow hsub hpad hcur => exact .inr ⟨hbuf, hgrid⟩
  | unpack m' hm' hp hrow hsub hopen hcur hg =>
    obtain rfl := hsame hm'
    exact .inr ⟨hg.cellsBelow hbuf, by rw [hg.eq]; exact hgrid⟩
  | run r n c hm' hrow hopen hcur hc hg =>
    obtain rfl := hsame hm'
    exact .inr ⟨hg.cellsBelow hbuf, by rw [hg.eq]; exact hgrid⟩
  | eol r hm' hrow hopen hcur ht => exact .inr ⟨.nil _, hfilled _⟩
  | eob r hm' hrow hopen hcur ht =>
    obtain ⟨rb, g, fr, heq, -, -, hunwritten, hread⟩ := endBitmap_eq (s := { s with cur := s.cur + 2 }) hrow
    rw [heq]
    refine .inr ⟨.of_unwritten hunwritten, fun a v hv => ?_⟩
    change g.read a = some v at hv
    rw [hread a] at hv
    split at hv
    · cases hv; exact Nat.two_pow_pos _
    · exact hfilled _ a v hv

/-- Settles O37: the decoder's operations by `DecoderStep.cellsBelow`; a START that begins a decode has empty memories, and what leaves for IDLE or FAULT
has no index to bound. -/
theorem stepKeepsIndicesInRange : Obligations.StepKeepsIndicesInRange := by
  unfold Obligations.StepKeepsIndicesInRange
  intro s t hinv hrange hstep
  cases step_cases hstep with
  | ignored v hc => exact hrange
  | start hc hp hw =>
    cases h : startFault { s with ctrl := none } with
    | some k => exact indicesInRange_of_phase (.inr (startDecode_faultedWith h).phase)
    | none =>
      rw [startDecode_run h]
      exact indicesInRange_iff.mpr fun m _ => ⟨fun _ => .nil _, fun _ => .nil _⟩
  | clear hc hp => exact indicesInRange_of_phase (.inl rfl)
  | decoder box hc hp hd =>
    have hrun := (hinv.run hp).ports s.ctrl box s.answer
    have hop := hrun.decoderStep hd
    by_cases hfault : t.phase = .fault
    · exact indicesInRange_of_phase (.inr hfault)
    · refine indicesInRange_iff.mpr fun m hm => ?_
      have hm : modeOf s.mode = some m := hop.keepsConfig.mode ▸ hm
      obtain ⟨hbuf, hgrid⟩ := indicesInRange_iff.mp hrange m hm
      obtain ⟨hbuf, hgrid⟩ := (hop.cellsBelow hrun hm (hbuf hp) (hgrid (.inl hp))).resolve_left hfault
      exact ⟨fun _ => hbuf, fun _ => hgrid⟩
  | nothing box got hc => exact hrange
  | writeMode v rest hc hp hi => exact indicesInRange_of_phase (.inl hp)
  | writeWidth v rest hc hp hi => exact indicesInRange_of_phase (.inl hp)
  | writeHeight v rest hc hp hi => exact indicesInRange_of_phase (.inl hp)
  | writeDataOffset v rest hc hp hi => exact indicesInRange_of_phase (.inl hp)
  | attach bytes rest hc hp hi => exact hrange
  | writeCtrl v rest hc hi => exact hrange
  | reset rest hc hi => exact indicesInRange_of_phase (.inl rfl)

end Sys2Proof.Machine

/-! ## The position of CUR in the packed modes (R112)

Within a row CUR is counted by the pixels while there are any and by the fillers after them; each operation of a packed mode moves the count as it moves
CUR, and the end of a row turns a whole stored row into one more ROW. -/

namespace Sys2Proof.Machine

theorem offsetInRow_of_pixels {b : Nat} {s : State} (hsub : s.sub = .pixels) : offsetInRow b s = (s.len.toNat * b + 7) / 8 := by
  rw [offsetInRow, hsub]

theorem offsetInRow_of_pad {b : Nat} {s : State} (hsub : s.sub = .pad) : offsetInRow b s = storedRow b s.width - s.padcnt.toNat := by
  rw [offsetInRow, hsub]

/-- The place of CUR in phase RUN: after the rows produced and what is taken of the next, whose pixels come a whole byte at a time until WIDTH. -/
structure AtPosition (b : Nat) (s : State) : Prop where
  cur : s.cur = s.dataOffset.toNat + s.row.toNat * storedRow b s.width + offsetInRow b s
  aligned : s.len.toNat * b % 8 = 0 ∨ s.len = s.width

theorem packedPosition_iff {s : State} : PackedPosition s ↔ ∀ m, modeOf s.mode = some m → isPacked m = true →
    (s.phase = .run → AtPosition (bitsPerPixel m) s) ∧
    (s.phase = .done → s.cur = s.dataOffset.toNat + s.height.toNat * storedRow (bitsPerPixel m) s.width) :=
  forall₃_congr fun _ _ _ => and_congr_left' (forall_congr' fun _ => ⟨fun ⟨hcur, haligned⟩ => ⟨hcur, haligned⟩, fun h => ⟨h.cur, h.aligned⟩⟩)

/-- In phases IDLE and FAULT nothing is said of CUR. -/
theorem packedPosition_of_phase {t : State} (hphase : t.phase = .idle ∨ t.phase = .fault) : PackedPosition t := by
  refine packedPosition_iff.mpr fun m _ _ => ⟨fun hrun => ?_, fun hdone => ?_⟩
  · simp [hrun] at hphase
  · simp [hdone] at hphase

/-- The beginning of a row is the end of the rows before it. -/
theorem AtPosition.of_rowBegun {b : Nat} {t : State} (h : RowBegun t)
    (hcur : t.cur = t.dataOffset.toNat + t.row.toNat * storedRow b t.width) : AtPosition b t where
  cur := by rw [offsetInRow_of_pixels h.sub, h.len, hcur]; simp
  aligned := .inl (by rw [h.len]; simp)

theorem not_isPacked_rleMode (r : Rle) : isPacked (rleMode r) = false := by
  cases r <;> rfl

theorem bitsPerPixel_of_packed {m : Mode} (hp : isPacked m = true) :
    bitsPerPixel m = 1 ∨ bitsPerPixel m = 2 ∨ bitsPerPixel m = 4 ∨ bitsPerPixel m = 8 := by
  revert hp; cases m <;> decide

/-- The pixels of one byte bring a row that ends on a byte one byte further, to the end of a byte or to WIDTH (R104). -/
theorem bytes_of_unpacked {b len width : Nat} (hb : b = 1 ∨ b = 2 ∨ b = 4 ∨ b = 8) (hopen : len < width) (haligned : len * b % 8 = 0) :
    ((len + min (8 / b) (width - len)) * b + 7) / 8 = (len * b + 7) / 8 + 1 ∧
      ((len + min (8 / b) (width - len)) * b % 8 = 0 ∨ len + min (8 / b) (width - len) = width) := by
  obtain rfl | rfl | rfl | rfl := hb <;> omega

section
variable {m : Mode} {s : State} (h : AtPosition (bitsPerPixel m) s) (hrun : RunInv s)
include h

/-- A packed byte taken (R104). -/
theorem AtPosition.of_unpack {t : State} (hp : isPacked m = true) (hsub : s.sub = .pixels) (hopen : s.len < s.width)
    (hg : Grown (bitsPerPixel m) (min (8 / bitsPerPixel m) (roomLeft s)) (s.cur + 1) s t) : AtPosition (bitsPerPixel m) t := by
  have haligned : s.len.toNat * bitsPerPixel m % 8 = 0 := h.aligned.resolve_right fun heq => by
    rw [heq] at hopen; exact BitVec.lt_irrefl _ hopen
  obtain ⟨hbytes, hend⟩ := bytes_of_unpacked (bitsPerPixel_of_packed hp) hopen haligned
  have hlen := hg.len
  have hcur := h.cur
  rw [offsetInRow_of_pixels hsub] at hcur
  rw [roomLeft] at hlen
  rw [← hlen] at hbytes hend
  rw [hg.eq]
  refine ⟨?_, hend.imp id BitVec.eq_of_toNat_eq⟩
  rw [offsetInRow_of_pixels (by exact hsub)]
  change s.cur + 1 = s.dataOffset.toNat + s.row.toNat * storedRow (bitsPerPixel m) s.width + (t.len.toNat * bitsPerPixel m + 7) / 8
  omega

/-- A row ends with its last filler, a stored row after its beginning (R112). -/
theorem AtPosition.of_commitRow (hrow : s.row < s.height) (hsub : s.sub = .pad) (hpad : s.padcnt = 0) :
    AtPosition (bitsPerPixel m) (commitRow s) := by
  refine .of_rowBegun (commitRow_rowBegun s) ?_
  have hcur := h.cur
  rw [offsetInRow_of_pad hsub, hpad] at hcur
  rw [commitRow_cur, commitRow_dataOffset, commitRow_row, commitRow_width, row_succ hrow, Nat.succ_mul, ← Nat.add_assoc]
  exact hcur

include hrun

/-- The fillers still to skip are counted from the end of the pixel bytes (R110). -/
theorem AtPosition.of_padset (hsub : s.sub = .pixels) (hfull : s.width ≤ s.len) : AtPosition (bitsPerPixel m)
    { s with padcnt := BitVec.ofNat 2 (fillerCount (rowBytes (bitsPerPixel m) s.width)), sub := .pad } := by
  have hlen := hrun.len_eq_width hfull
  have hcur := h.cur
  have hsum := rowBytes_add_fillerCount (bitsPerPixel m) s.width
  have hcount : (BitVec.ofNat 2 (fillerCount (rowBytes (bitsPerPixel m) s.width))).toNat = fillerCount (rowBytes (bitsPerPixel m) s.width) :=
    toNat_ofNat_fillerCount _
  rw [offsetInRow_of_pixels hsub, hlen, ← rowBytes] at hcur
  refine ⟨?_, .inr hlen⟩
  rw [offsetInRow_of_pad rfl]
  dsimp only
  omega

/-- A filler skipped (R111). -/
theorem AtPosition.of_padskip (hm : modeOf s.mode = some m) (hsub : s.sub = .pad) (hpad : s.padcnt ≠ 0) :
    AtPosition (bitsPerPixel m) { s with cur := s.cur + 1, padcnt := s.padcnt - 1 } := by
  have hcur := h.cur
  have hpos : s.padcnt.toNat ≠ 0 := fun hzero => hpad (BitVec.eq_of_toNat_eq hzero)
  have hle := hrun.pad_count m hm hsub
  have hsum := rowBytes_add_fillerCount (bitsPerPixel m) s.width
  rw [offsetInRow_of_pad hsub] at hcur
  refine ⟨?_, .inr (hrun.pad_row_full hsub)⟩
  rw [offsetInRow_of_pad (by exact hsub)]
  dsimp only
  rw [toNat_padcnt_pred hpad]
  omega

/-- When every row is produced a decode has taken HEIGHT stored rows (R112). -/
theorem AtPosition.cur_of_finish (hrow : s.row = s.height) :
    s.cur = s.dataOffset.toNat + s.height.toNat * storedRow (bitsPerPixel m) s.width := by
  obtain ⟨hlen, hsub⟩ := hrun.row_complete hrow
  have hcur := h.cur
  rw [offsetInRow_of_pixels hsub, hlen, hrow] at hcur
  simpa using hcur

end

/-- An operation of a packed mode keeps the position, or ends the decode at the end of the last row; the operations of the RLE modes are not among them. -/
theorem DecoderStep.packedPosition {s t : State} (hstep : DecoderStep s t) (hs : s.phase = .run) (hrun : RunInv s) (hpos : PackedPosition s) :
    PackedPosition t := by
  have hcur {m : Mode} (hm : modeOf s.mode = some m) (hp : isPacked m = true) : AtPosition (bitsPerPixel m) s :=
    (packedPosition_iff.mp hpos m hm hp).1 hs
  by_cases hfault : t.phase = .fault
  · exact packedPosition_of_phase (.inr hfault)
  refine packedPosition_iff.mpr fun m hm hp => ?_
  have hm : modeOf s.mode = some m := hstep.keepsConfig.mode ▸ hm
  have hat := hcur hm hp
  have hsame {m' : Mode} (hm' : modeOf s.mode = some m') : m = m' := Option.some.inj (hm.symm.trans hm')
  have hpacked {r : Rle} (hm' : modeOf s.mode = some (rleMode r)) : False := by
    rw [hsame hm', not_isPacked_rleMode] at hp; cases hp
  have hkeeps (hphase : t.phase = .run) (hat' : AtPosition (bitsPerPixel m) t) : (t.phase = .run → AtPosition (bitsPerPixel m) t) ∧
      (t.phase = .done → t.cur = t.dataOffset.toNat + t.height.toNat * storedRow (bitsPerPixel m) t.width) :=
    ⟨fun _ => hat', fun hdone => by simp [hphase] at hdone⟩
  cases hstep with
  | raised hr => exact absurd hr.phase hfault
  | finish hrow => exact ⟨fun hp => by simp at hp, fun _ => hat.cur_of_finish hrun hrow⟩
  | rowend m' hm' hrow hdone =>
    obtain ⟨-, hsub, hpad⟩ | ⟨hnot, -⟩ := hdone
    · exact hkeeps hs (hat.of_commitRow hrow hsub hpad)
    · rw [← hsame hm', hp] at hnot; cases hnot
  | padset m' hm' hp' hrow hsub hfull =>
    obtain rfl := hsame hm'
    exact hkeeps hs (hat.of_padset hrun hsub hfull)
  | padskip m' hm' hp' hrow hsub hpad hcur => exact hkeeps hs (hat.of_padskip hrun hm hsub hpad)
  | unpack m' hm' hp' hrow hsub hopen hcur hg =>
    obtain rfl := hsame hm'
    exact hkeeps (by rw [hg.eq]; exact hs) (hat.of_unpack hp hsub hopen hg)
  | run r n c hm' hrow hopen hcur hc hg => exact (hpacked hm').elim
  | eol r hm' hrow hopen hcur ht => exact (hpacked hm').elim
  | eob r hm' hrow hopen hcur ht => exact (hpacked hm').elim

/-- Settles O38: the decoder's operations by `DecoderStep.packedPosition`; START begins the first row at DATA_OFFSET, and no move of the host in RUN or DONE
touches CUR or the configuration. -/
theorem stepKeepsPackedPosition : Obligations.StepKeepsPackedPosition := by
  unfold Obligations.StepKeepsPackedPosition
  intro s t hinv hpos hstep
  cases step_cases hstep with
  | ignored v hc => exact hpos
  | start hc hp hw =>
    cases h : startFault { s with ctrl := none } with
    | some k => exact packedPosition_of_phase (.inr (startDecode_faultedWith h).phase)
    | none =>
      have hbegun := startDecode_rowBegun h
      rw [startDecode_run h] at hbegun ⊢
      exact packedPosition_iff.mpr fun m _ _ => ⟨fun _ => .of_rowBegun hbegun (by simp), fun hdone => by simp at hdone⟩
  | clear hc hp => exact packedPosition_of_phase (.inl rfl)
  | decoder box hc hp hd =>
    have hrun := (hinv.run hp).ports s.ctrl box s.answer
    exact (hrun.decoderStep hd).packedPosition hp hrun hpos
  | nothing box got hc => exact hpos
  | writeMode v rest hc hp hi => exact packedPosition_of_phase (.inl hp)
  | writeWidth v rest hc hp hi => exact packedPosition_of_phase (.inl hp)
  | writeHeight v rest hc hp hi => exact packedPosition_of_phase (.inl hp)
  | writeDataOffset v rest hc hp hi => exact packedPosition_of_phase (.inl hp)
  | attach bytes rest hc hp hi => exact hpos
  | writeCtrl v rest hc hi => exact hpos
  | reset rest hc hi => exact packedPosition_of_phase (.inl rfl)

end Sys2Proof.Machine

/-! ## Every decode goes on and ends (R14, R162)

No operation is without an effect in a state of the invariant, and each one that does not end the decode lowers the bound on those still to come. -/

namespace Sys2Proof.Machine

/-! ### Totality -/

theorem Flow.andThen_total {α : Type} (x : Flow α) {k : α → State → Result} (hk : ∀ a s, ∃ t, k a s = .next t) : ∃ t, x.andThen k = .next t := by
  cases x with
  | go a s => exact hk a s
  | raised s => exact ⟨s, rfl⟩

theorem endRun_total (t0 : Nat) (s : State) : ∃ t, endRun t0 s = .next t := by
  unfold endRun
  split <;> exact ⟨_, rfl⟩

theorem unpack_total (b : Nat) (B : Byte) (s : State) : ∃ t, unpack b B s = .next t :=
  (fetch .truncatedPixelData s).andThen_total fun _ _ => ⟨_, rfl⟩

/-- An operation that begins with the token fetch goes on with both bytes there, and otherwise is the truncation (R73). -/
theorem token_total {i : Instr} {s : State} {k : Nat → State → Result} (hexec : exec i s = (fetchToken s).andThen k)
    (htoken : s.cur + 2 ≤ s.stream.length → ∃ t, exec i s = .next t) : ∃ t, exec i s = .next t := by
  obtain hend | hcur := Nat.lt_or_ge s.stream.length (s.cur + 2)
  · obtain ⟨t, ht, -⟩ := token_truncated k hend
    exact ⟨t, hexec.trans ht⟩
  · exact htoken hcur

/-- Only PADSET under a reserved MODE and a commit beyond GRID stop, and only START refuses (log 18, R41): every other operation of every state has a
next state. -/
theorem exec_total {i : Instr} {s : State} (hi : i.format ≠ .c) (hmode : (modeOf s.mode).isSome = true)
    (hrow : i = .rowend ∨ i = .eol ∨ i = .eob → s.row < s.height) : ∃ t, exec i s = .next t := by
  cases i
  case start | clear => exact absurd rfl hi
  case finish => exact ⟨_, rfl⟩
  case rowend => exact ⟨_, exec_rowend_of_row_lt (hrow (by simp))⟩
  case unpack1 B => exact unpack_total 1 B s
  case unpack2 B => exact unpack_total 2 B s
  case unpack4 B => exact unpack_total 4 B s
  case unpack8 B => exact unpack_total 8 B s
  case padset =>
    obtain ⟨m, hm⟩ := Option.isSome_iff_exists.mp hmode
    exact ⟨_, exec_padset hm⟩
  case padskip B => exact (fetch .truncatedPixelData s).andThen_total fun _ _ => ⟨_, rfl⟩
  case eol => exact token_total rfl fun hcur => ⟨_, exec_eol_of_token hcur (hrow (by simp))⟩
  case eob => exact token_total rfl fun hcur => ⟨_, exec_eob_of_token hcur (hrow (by simp))⟩
  case delta => exact (fetchToken s).andThen_total fun _ _ => ⟨_, rfl⟩
  case abs4 n =>
    exact (fetchToken s).andThen_total fun t0 s1 => (literals4 n.toNat 0 0 s1).andThen_total fun _ s2 =>
      (padByte ((n.toNat + 1) / 2) s2).andThen_total fun _ s3 => endRun_total t0 s3
  case abs8 n =>
    exact (fetchToken s).andThen_total fun t0 s1 => (literals8 n.toNat s1).andThen_total fun _ s2 =>
      (padByte n.toNat s2).andThen_total fun _ s3 => endRun_total t0 s3
  case enc4 n p q => exact (fetchToken s).andThen_total fun t0 s1 => endRun_total t0 _
  case enc8 n v => exact (fetchToken s).andThen_total fun t0 s1 => endRun_total t0 _

/-- The lines of R72 for a row: an open row may take pixel data, and every other line is one of three operations. -/
theorem selectInRow_cases (m : Mode) (s : State) :
    (s.len < s.width ∧ selectInRow m s = unpackContext m) ∨ selectInRow m s = .padset ∨ selectInRow m s = .padskip ∨ selectInRow m s = .rowend := by
  cases hp : isPacked m with
  | true =>
    cases hsub : s.sub with
    | pixels =>
      by_cases hopen : s.len < s.width
      · exact .inl ⟨hopen, selectInRow_of_open m hsub hopen⟩
      · exact .inr (.inl (selectInRow_of_packed_full hp hsub (Reg32.not_lt.mp hopen)))
    | pad =>
      by_cases hpad : s.padcnt = 0
      · exact .inr (.inr (.inr (selectInRow_of_no_fillers hp hsub hpad)))
      · exact .inr (.inr (.inl (selectInRow_of_fillers hp hsub hpad)))
  | false =>
    obtain ⟨r, rfl⟩ := eq_rleMode_of_not_packed hp
    by_cases hopen : s.len < s.width
    · refine .inl ⟨hopen, (selectInRow_of_rle_open hopen).trans ?_⟩
      cases r <;> rfl
    · exact .inr (.inr (.inr (selectInRow_of_rle_full (Reg32.not_lt.mp hopen))))

/-- The lines of R72: FINISH where no row is left, no line under a reserved MODE, and otherwise those of a row. -/
theorem select_cases {s : State} {c : Context} (h : select s = some c) :
    (s.row = s.height ∧ c = .finish) ∨ ∃ m, modeOf s.mode = some m ∧
      ((s.len < s.width ∧ c = unpackContext m) ∨ c = .padset ∨ c = .padskip ∨ c = .rowend) := by
  by_cases hrow : s.row = s.height
  · rw [select_of_row_eq_height hrow, Option.some.injEq] at h
    exact .inl ⟨hrow, h.symm⟩
  · cases hm : modeOf s.mode with
    | none => simp [select, imageComplete, hrow, hm] at h
    | some m =>
      rw [select_of_row_ne_height hrow hm, Option.some.injEq] at h
      exact .inr ⟨m, rfl, h ▸ selectInRow_cases m s⟩

/-- No context that the state selects is a command's, which are the host's (R77). -/
theorem select_ne_command {s : State} (v : BitVec 2) : select s ≠ some (.command v) := by
  intro h
  obtain ⟨-, hc⟩ | ⟨m, -, ⟨-, hc⟩ | hc | hc | hc⟩ := select_cases h
  case inr.inl => cases m <;> cases hc
  all_goals cases hc

/-- The operation that a selected context decodes to is none of the host's commands. -/
theorem format_ne_c_of_decode {c : Context} {bytes rest : List Byte} {i : Instr} (hc : ∀ v, c ≠ .command v)
    (hd : decode c bytes = .ok (i, rest)) : i.format ≠ .c := by
  obtain ⟨-, -, -, -, r, rfl⟩ := encodedAs_of_decode hd
  cases i
  case start => exact absurd rfl (hc 1)
  case clear => exact absurd rfl (hc 2)
  all_goals simp [Instr.format]

/-- A context that is no command's decodes to an operation, or lacks a byte. -/
theorem decode_ok_or_missing {c : Context} (hc : ∀ v, c ≠ .command v) (bytes : List Byte) :
    (∃ i rest, decode c bytes = .ok (i, rest)) ∨ ∃ k, decode c bytes = .error (.missingByte k) := by
  cases hd : decode c bytes with
  | ok p => exact .inl ⟨p.1, p.2, rfl⟩
  | error e =>
    cases e with
    | missingByte k => exact .inr ⟨k, rfl⟩
    | notACommand =>
      cases c
      case command v => exact absurd rfl (hc v)
      case token r => match bytes with
        | [] | [_] | _ :: _ :: _ => cases hd
      case finish | rowend | padset => cases hd
      all_goals cases bytes <;> cases hd

/-- The three outcomes of a turn of the decoder in phase RUN (R72, R73): the stop under a reserved MODE, `exec` of what decodes at CUR, or the truncation at
the byte that is missing. -/
inductive DecoderOutcome (s : State) : Prop where
  | reserved (hrow : s.row ≠ s.height) (hmode : modeOf s.mode = none) (h : decoderOperation s = .fault .reservedModeInRun)
  | run (c : Context) (i : Instr) (rest : List Byte) (hsel : select s = some c) (hd : decode c (s.stream.drop s.cur) = .ok (i, rest))
      (hi : i.format ≠ .c) (h : decoderOperation s = exec i s)
  | missing (c : Context) (k : Nat) (hsel : select s = some c) (h : decoderOperation s = .next (raise (truncationKind c) (s.cur + k) s))

theorem select_eq_none {s : State} (h : select s = none) : s.row ≠ s.height ∧ modeOf s.mode = none := by
  have hrow : s.row ≠ s.height := fun heq => by rw [select_of_row_eq_height heq] at h; cases h
  refine ⟨hrow, ?_⟩
  cases hm : modeOf s.mode with
  | none => rfl
  | some m => rw [select_of_row_ne_height hrow hm] at h; cases h

theorem decoderOperation_outcome (s : State) : DecoderOutcome s := by
  cases hsel : select s with
  | none =>
    obtain ⟨hrow, hmode⟩ := select_eq_none hsel
    exact .reserved hrow hmode (by simp only [decoderOperation, hsel])
  | some c =>
    have hc (v : BitVec 2) : c ≠ .command v := fun heq => select_ne_command v (heq ▸ hsel)
    obtain ⟨i, rest, hd⟩ | ⟨k, hd⟩ := decode_ok_or_missing hc (s.stream.drop s.cur)
    · exact .run c i rest hsel hd (format_ne_c_of_decode hc hd) (decoderOperation_decoded hsel hd)
    · exact .missing c k hsel (decoderOperation_missing hsel hd)

/-- With ROW = HEIGHT the decoder runs FINISH and nothing else (R72). -/
theorem eq_finish_of_row_eq_height {s : State} {c : Context} {i : Instr} {bytes rest : List Byte} (hrow : s.row = s.height)
    (hsel : select s = some c) (hd : decode c bytes = .ok (i, rest)) : i = .finish := by
  rw [select_of_row_eq_height hrow] at hsel
  cases hsel
  cases hd
  rfl

theorem RunInv.decoderOperation_total {s : State} (h : RunInv s) : ∃ t, decoderOperation s = .next t := by
  cases decoderOperation_outcome s with
  | reserved hrow hmode _ => have := h.mode; simp [hmode] at this
  | missing c k hsel heq => exact ⟨_, heq⟩
  | run c i rest hsel hd hi heq =>
    rw [heq]
    refine exec_total hi h.mode fun hcommit => ?_
    have hne : s.row ≠ s.height := fun hrow => by simp [eq_finish_of_row_eq_height hrow hsel hd] at hcommit
    exact Nat.lt_of_le_of_ne h.row_le fun hrow => hne (BitVec.eq_of_toNat_eq hrow)

/-- Settles O39: outside RUN the decoder rests, and in RUN the invariant keeps it from each stop. -/
theorem decoderNeverStops : Obligations.DecoderNeverStops := by
  unfold Obligations.DecoderNeverStops
  intro s hinv hquiet
  by_cases hs : s.phase = .run
  · rw [step_of_quiet hquiet, decoderTurn_run hs]
    exact (hinv.run hs).decoderOperation_total
  · exact ⟨s, step_of_quiet_not_run hquiet hs⟩

/-! ### Termination -/

/-- The end of a row, at or after CUR, lowers the bound: the two of the row outweigh the PADSET of the next. -/
theorem operationsLeft_commitRow_lt {s : State} (hrow : s.row < s.height) {c : Nat} (rb : Memory) (hcur : s.cur ≤ c) :
    operationsLeft (commitRow { s with cur := c, rowbuf := rb }) < operationsLeft s := by
  have hlt : s.row.toNat < s.height.toNat := hrow
  simp only [operationsLeft, commitRow_stream, commitRow_cur, commitRow_height, commitRow_row, commitRow_sub, row_succ hrow, if_true]
  omega

/-- Pixels added with a byte taken lower the bound. -/
theorem Grown.operationsLeft_lt {b n c : Nat} {s t : State} (hg : Grown b n c s t) (hcur : s.cur < c) (hc : c ≤ s.stream.length) :
    t.phase = s.phase ∧ operationsLeft t < operationsLeft s := by
  rw [hg.eq]
  refine ⟨rfl, ?_⟩
  simp only [operationsLeft]
  omega

/-- The bound counts one for each byte, two for each row, and one for the PADSET still to come; an operation that goes on takes a byte, ends a row or is
that PADSET. -/
theorem DecoderStep.ends_or_operationsLeft_lt {s t : State} (h : DecoderStep s t) :
    (t.phase = .done ∨ t.phase = .fault) ∨ (t.phase = s.phase ∧ operationsLeft t < operationsLeft s) := by
  cases h with
  | raised hr => exact .inl (.inr hr.phase)
  | finish hrow => exact .inl (.inl rfl)
  | rowend m hm hrow hdone => exact .inr ⟨rfl, operationsLeft_commitRow_lt hrow s.rowbuf (Nat.le_refl _)⟩
  | padset m hm hp hrow hsub hfull =>
    refine .inr ⟨rfl, ?_⟩
    simp only [operationsLeft, hsub, reduceCtorEq, if_true, if_false]
    omega
  | padskip m hm hp hrow hsub hpad hcur =>
    refine .inr ⟨rfl, ?_⟩
    simp only [operationsLeft]
    omega
  | unpack m hm hp hrow hsub hopen hcur hg => exact .inr (hg.operationsLeft_lt (Nat.lt_succ_self _) hcur)
  | run r n c hm hrow hopen hcur hc hg => exact .inr (hg.operationsLeft_lt (by omega) hc)
  | eol r hm hrow hopen hcur ht => exact .inr ⟨rfl, operationsLeft_commitRow_lt hrow _ (Nat.le_add_right _ 2)⟩
  | eob r hm hrow hopen hcur ht => exact .inl (.inl rfl)

/-- A decode ends within any number of steps that bounds its operations. -/
theorem ends_of_operationsLeft_le {n : Nat} {s : State} (hinv : Inv s) (hquiet : Quiet s) (hs : s.phase = .run) (hn : operationsLeft s ≤ n) :
    ∃ (k : Nat) (t : State), k ≤ n ∧ Sys2Proof.core.run k s = .next t ∧ (t.phase = .done ∨ t.phase = .fault) := by
  induction n generalizing s with
  | zero => rw [operationsLeft] at hn; omega
  | succ n ih =>
    obtain ⟨t, hstep⟩ := decoderNeverStops s hinv hquiet
    have hop : DecoderStep s t := by
      rw [step_of_quiet hquiet, decoderTurn_run hs] at hstep
      exact (hinv.run hs).decoderStep hstep
    obtain hend | ⟨hphase, hlt⟩ := hop.ends_or_operationsLeft_lt
    · exact ⟨1, t, by omega, run_step hstep, hend⟩
    · have hinv' := stepKeepsInvariant s t hinv hstep
      obtain ⟨k, u, hk, hrest, hend⟩ := ih hinv' (hop.keepsConfig.quiet hquiet) (hphase.trans hs) (by omega)
      exact ⟨k + 1, u, by omega, (run_step hstep).trans hrest, hend⟩

/-- Settles O40: the bound itself is such a number. -/
theorem everyDecodeEnds : Obligations.EveryDecodeEnds := by
  unfold Obligations.EveryDecodeEnds
  exact fun s hinv hquiet hs => ends_of_operationsLeft_le hinv hquiet hs (Nat.le_refl _)

end Sys2Proof.Machine

/-! ## What a step never does (R22, R50, R150, R156, R164, R202)

These hold in every state, of the invariant or not. They rest on one lemma: whatever the decoder does in a turn, the configuration and the stream are kept,
and PHASE and ERR_KIND change by a raise, FINISH or EOB only. -/

namespace Sys2Proof.Machine

theorem truncationKind_mem_raisedKinds (c : Context) : truncationKind c ∈ raisedKinds := by
  cases c <;> simp [truncationKind, raisedKinds]

/-- A turn of the decoder that gives a next state: an operation other than a command, or a truncation. -/
theorem decoderOperation_next {s t : State} (h : decoderOperation s = .next t) :
    (∃ c i rest, select s = some c ∧ decode c (s.stream.drop s.cur) = .ok (i, rest) ∧ ExecKept i s t) ∨
      ∃ k off, k ∈ raisedKinds ∧ t = raise k off s := by
  cases decoderOperation_outcome s with
  | reserved hrow hmode heq => rw [heq] at h; cases h
  | run c i rest hsel hd hi heq => exact .inl ⟨c, i, rest, hsel, hd, exec_kept hi (heq ▸ h)⟩
  | missing c k hsel heq =>
    rw [heq] at h
    cases h
    exact .inr ⟨_, _, truncationKind_mem_raisedKinds c, rfl⟩

theorem decoderOperation_keepsConfig {s t : State} (h : decoderOperation s = .next t) : KeepsConfig s t := by
  obtain ⟨c, i, rest, -, -, hkept⟩ | ⟨k, off, -, rfl⟩ := decoderOperation_next h
  · exact hkept.1
  · exact raise_keepsConfig k off s

theorem decoderOperation_errKind {s t : State} (h : decoderOperation s = .next t) : t.errKind = s.errKind ∨ t.errKind ∈ raisedKinds := by
  obtain ⟨c, i, rest, -, -, -, ⟨hkind, -⟩ | ⟨-, hkind⟩⟩ | ⟨k, off, hk, rfl⟩ := decoderOperation_next h
  · exact .inl hkind
  · exact .inr hkind
  · exact .inr hk

/-- Settles O43: a write of a register in phase IDLE sets that one, and no other move touches any of the four. -/
theorem configurationChangesOnlyByHostWrites : Obligations.ConfigurationChangesOnlyByHostWrites := by
  unfold Obligations.ConfigurationChangesOnlyByHostWrites
  intro s t hstep hreset
  cases step_cases hstep with
  | start hc hp hw =>
    have h := startDecode_keepsConfig { s with ctrl := none }
    exact ⟨.inl h.mode, .inl h.width, .inl h.height, .inl h.dataOffset⟩
  | decoder box hc hp hd =>
    have h := decoderOperation_keepsConfig hd
    exact ⟨.inl h.mode, .inl h.width, .inl h.height, .inl h.dataOffset⟩
  | writeMode v rest hc hp hi => exact ⟨.inr ⟨hp, rest, hi⟩, .inl rfl, .inl rfl, .inl rfl⟩
  | writeWidth v rest hc hp hi => exact ⟨.inl rfl, .inr ⟨hp, rest, hi⟩, .inl rfl, .inl rfl⟩
  | writeHeight v rest hc hp hi => exact ⟨.inl rfl, .inl rfl, .inr ⟨hp, rest, hi⟩, .inl rfl⟩
  | writeDataOffset v rest hc hp hi => exact ⟨.inl rfl, .inl rfl, .inl rfl, .inr ⟨hp, rest, hi⟩⟩
  | reset rest hc hi => exact absurd ⟨hc, rest, hi⟩ hreset
  | _ => exact ⟨.inl rfl, .inl rfl, .inl rfl, .inl rfl⟩

/-- Settles O44: the decoder keeps the stream, START too, and the host attaches one outside phase RUN only. -/
theorem streamIsFixedDuringRun : Obligations.StreamIsFixedDuringRun := by
  unfold Obligations.StreamIsFixedDuringRun
  refine ⟨fun s t hstep => ?_, fun s bytes rest hctrl hs hbox => ?_⟩
  · cases step_cases hstep with
    | start hc hp hw => exact .inl (startDecode_keepsConfig { s with ctrl := none }).stream
    | decoder box hc hp hd => exact .inl (decoderOperation_keepsConfig hd).stream
    | attach bytes rest hc hp hi => exact .inr ⟨hp, rest, hi⟩
    | _ => exact .inl rfl
  · simp only [step, turn, hctrl, hbox, hostTurn, hs, if_true]

/-- The codes of the kinds that the block raises (R150). -/
theorem errCode_of_raised {k : ErrKind} (h : k ∈ raisedKinds) : errCode k ∈ [0, 3, 6, 7, 8, 9, 10] := by
  revert h; cases k <;> decide

/-- Settles O45: the decoder and START write a raised kind, and START, CLEAR and reset the kind of no error. -/
theorem hostSideErrorKindsAreNeverWritten : Obligations.HostSideErrorKindsAreNeverWritten := by
  unfold Obligations.HostSideErrorKindsAreNeverWritten
  intro s t hstep
  have hnone : errCode .none ∈ [0, 3, 6, 7, 8, 9, 10] := by decide
  cases step_cases hstep with
  | start hc hp hw =>
    cases h : startFault { s with ctrl := none } with
    | some k =>
      rw [(startDecode_faultedWith h).errKind]
      exact .inr (errCode_of_raised (startFault_mem_raisedKinds h))
    | none =>
      rw [startDecode_run h]
      exact .inr hnone
  | decoder box hc hp hd => exact (decoderOperation_errKind hd).imp id errCode_of_raised
  | clear hc hp => exact .inr hnone
  | reset rest hc hi => exact .inr hnone
  | _ => exact .inl rfl

/-- Settles O41: in phase FAULT the decoder rests and START is ignored, so what is left are CLEAR, reset, and moves that touch neither PHASE nor the error. -/
theorem faultIsLeftOnlyByClearOrReset : Obligations.FaultIsLeftOnlyByClearOrReset := by
  unfold Obligations.FaultIsLeftOnlyByClearOrReset
  intro s t hs hstep
  cases step_cases hstep with
  | clear hc hp => exact .inr ⟨.inl hc, rfl, rfl, rfl, fun _ => rfl, fun _ => rfl⟩
  | reset rest hc hi => exact .inr ⟨.inr ⟨hc, rest, hi⟩, rfl, rfl, rfl, fun _ => rfl, fun _ => rfl⟩
  | start hc hp hw => simp [hs] at hp
  | decoder box hc hp hd => simp [hs] at hp
  | writeMode v rest hc hp hi => simp [hs] at hp
  | writeWidth v rest hc hp hi => simp [hs] at hp
  | writeHeight v rest hc hp hi => simp [hs] at hp
  | writeDataOffset v rest hc hp hi => simp [hs] at hp
  | _ => exact .inl ⟨hs, rfl, rfl⟩

/-- A token is selected in an open row of its RLE mode only (R72). -/
theorem select_eq_token {s : State} {r : Rle} (h : select s = some (.token r)) : modeOf s.mode = some (rleMode r) ∧ s.len < s.width := by
  obtain ⟨-, hc⟩ | ⟨m, hm, ⟨hopen, hc⟩ | hc | hc | hc⟩ := select_cases h
  case inr.inl =>
    refine ⟨hm.trans ?_, hopen⟩
    cases m <;> cases hc <;> rfl
  all_goals cases hc

/-- FINISH is selected where no row is left only (R72). -/
theorem select_eq_finish {s : State} (h : select s = some .finish) : s.row = s.height := by
  obtain ⟨hrow, -⟩ | ⟨m, -, ⟨-, hc⟩ | hc | hc | hc⟩ := select_cases h
  case inl => exact hrow
  case inr.inl => cases m <;> cases hc
  all_goals cases hc

/-- The first two bytes at CUR are the token there. -/
theorem tokenAt_of_drop {s : State} {first second : Byte} {rest : List Byte} (h : s.stream.drop s.cur = first :: second :: rest) :
    TokenAt first second s := by
  constructor
  · rw [← Nat.add_zero s.cur, ← List.getElem?_drop, h]; rfl
  · rw [← List.getElem?_drop, h]; rfl

/-- FINISH is what decodes where no row is left, and EOB where the token (0, 1) stands and a token is expected (R202). -/
theorem selected_of_finish_or_eob {s : State} {c : Context} {i : Instr} {rest : List Byte} (hi : i = .finish ∨ i = .eob)
    (hsel : select s = some c) (hd : decode c (s.stream.drop s.cur) = .ok (i, rest)) :
    s.row = s.height ∨ ∃ r, modeOf s.mode = some (rleMode r) ∧ s.len < s.width ∧ TokenAt 0 1 s := by
  obtain ⟨taken, hbytes, rfl, -, r, rfl⟩ := encodedAs_of_decode hd
  obtain rfl | rfl := hi
  · exact .inl (select_eq_finish hsel)
  · obtain ⟨hm, hopen⟩ := select_eq_token hsel
    exact .inr ⟨r, hm, hopen, tokenAt_of_drop hbytes⟩

/-- Settles O42: START leaves IDLE for RUN or FAULT, and an operation of the decoder enters DONE as FINISH or as EOB only. -/
theorem doneIsReachedOnlyByFinishOrEob : Obligations.DoneIsReachedOnlyByFinishOrEob := by
  unfold Obligations.DoneIsReachedOnlyByFinishOrEob
  intro s t hs ht hstep
  cases step_cases hstep with
  | start hc hp hw =>
    cases h : startFault { s with ctrl := none } with
    | some k => simp [(startDecode_faultedWith h).phase] at ht
    | none => simp [startDecode_run h] at ht
  | decoder box hc hp hd =>
    refine ⟨hp, ?_⟩
    obtain ⟨c, i, rest, hsel, hdec, -, ⟨-, hphase | ⟨-, hi⟩⟩ | ⟨hfault, -⟩⟩ | ⟨k, off, -, rfl⟩ := decoderOperation_next hd
    · exact absurd (hphase.symm.trans ht) hs
    · obtain h | ⟨r, hm, hopen, hat⟩ := selected_of_finish_or_eob hi hsel hdec
      · exact .inl h
      · exact .inr ⟨r, hm, hopen, hat.first, hat.second⟩
    · simp [hfault] at ht
    · simp at ht
  | clear hc hp => cases ht
  | reset rest hc hi => cases ht
  | _ => exact absurd ht hs

end Sys2Proof.Machine

/-! ## The length of an operation (R29, R79)

CUR moves by what was fetched. Where an operation does not fault it fetched every byte of its encoding and its body, so the cases are those in which the
bytes are there. -/

namespace Sys2Proof.Machine

theorem endRun_eq_of_no_fault {t0 : Nat} {s t : State} (h : endRun t0 s = .next t) (ht : t.phase ≠ .fault) : t = s := by
  obtain rfl | ⟨rfl, -⟩ := endRun_cases h
  · exact absurd rfl ht
  · rfl

theorem unpack_cur {b : Nat} {B : Byte} {s t : State} (h : unpack b B s = .next t) (ht : t.phase ≠ .fault) : t.cur = s.cur + 1 := by
  obtain hlt | hend := Nat.lt_or_ge s.cur s.stream.length
  · obtain ⟨u, hu, hadded⟩ := unpack_of_lt b B hlt
    cases hu.symm.trans h
    exact hadded.cur
  · cases (unpack_at_end b B hend).symm.trans h
    exact absurd rfl ht

/-- The rest of a token operation that does not fault starts two bytes on. -/
theorem token_of_no_fault {k : Nat → State → Result} {s t : State} (h : (fetchToken s).andThen k = .next t) (ht : t.phase ≠ .fault) :
    k s.cur { s with cur := s.cur + 2 } = .next t := by
  obtain hraised | ⟨-, h⟩ := token_cases h
  · exact absurd hraised.phase ht
  · exact h

theorem encoded_cur {f : Nat → Byte} {n : Nat} {s t : State} (h : ((fetchToken s).andThen fun t0 s1 => endRun t0 (emitRun f n 0 s1)) = .next t)
    (ht : t.phase ≠ .fault) : t.cur = s.cur + 2 := by
  have h := token_of_no_fault h ht
  obtain rfl := endRun_eq_of_no_fault h ht
  rw [(emitRun_runCounted f n s).eq]

theorem endBitmap_cur (s : State) : (endBitmap s).cur = s.cur := by
  obtain ⟨-, -, -, hcur⟩ := fillRows_keeps (s.height.toNat - s.row.toNat) s
  exact hcur

/-- Settles O46: operation by operation, the bytes fetched before the effect. -/
theorem operationConsumesItsLength : Obligations.OperationConsumesItsLength := by
  unfold Obligations.OperationConsumesItsLength
  intro i s t hi h ht
  cases i
  case start | clear => exact absurd rfl hi
  case finish => cases h; rfl
  case rowend =>
    change execRowend s = .next t at h
    unfold execRowend at h
    split at h
    · cases h; rfl
    · cases h
  case unpack1 B => exact unpack_cur h ht
  case unpack2 B => exact unpack_cur h ht
  case unpack4 B => exact unpack_cur h ht
  case unpack8 B => exact unpack_cur h ht
  case padset =>
    change execPadset s = .next t at h
    unfold execPadset at h
    split at h
    · cases h
    · cases h; rfl
  case padskip B =>
    obtain hlt | hend := Nat.lt_or_ge s.cur s.stream.length
    · cases (exec_padskip_of_lt B hlt).symm.trans h; rfl
    · cases (exec_padskip_at_end B hend).symm.trans h; exact absurd rfl ht
  case eol =>
    have h := token_of_no_fault h ht
    split at h
    · cases h; rfl
    · cases h
  case eob =>
    have h := token_of_no_fault h ht
    split at h
    · cases h; exact endBitmap_cur _
    · cases h
  case delta => cases token_of_no_fault h ht; exact absurd rfl ht
  case abs4 n =>
    obtain hend | hall := Nat.lt_or_ge s.stream.length (s.cur + 2 + (n.toNat + 1) / 2 + (n.toNat + 1) / 2 % 2)
    · obtain ⟨u, hu, hfault⟩ := exec_abs4_truncated hend
      cases hu.symm.trans h
      exact absurd hfault.phase ht
    · obtain ⟨u, hu, hcounted⟩ := exec_abs4_of_bytes hall
      obtain rfl := endRun_eq_of_no_fault (hu.symm.trans h) ht
      rw [hcounted.eq]
      rfl
  case abs8 n =>
    obtain hend | hall := Nat.lt_or_ge s.stream.length (s.cur + 2 + n.toNat + n.toNat % 2)
    · obtain ⟨u, hu, hfault⟩ := exec_abs8_truncated hend
      cases hu.symm.trans h
      exact absurd hfault.phase ht
    · obtain ⟨u, hu, hcounted⟩ := exec_abs8_of_bytes hall
      obtain rfl := endRun_eq_of_no_fault (hu.symm.trans h) ht
      rw [hcounted.eq]
      rfl
  case enc4 n p q => exact encoded_cur h ht
  case enc8 n v => exact encoded_cur h ht

end Sys2Proof.Machine

/-! ## The bytes below CUR (R51)

Two streams that agree from CUR on give one and the same operation, up to the stream in the state it leaves. Fetch is the one place where a byte is read,
and it moves CUR on, so the streams go on agreeing; whatever lies between two fetches does not see the stream. -/

namespace Sys2Proof.Machine

/-- The streams of the state and `y` hold the same from CUR on. -/
def AgreesFrom (y : List Byte) (s : State) : Prop :=
  ∀ a, s.cur ≤ a → y[a]? = s.stream[a]?

theorem agreesFrom_of_drop {y : List Byte} {s : State} (h : y.drop s.cur = s.stream.drop s.cur) : AgreesFrom y s := by
  intro a ha
  rw [show a = s.cur + (a - s.cur) by omega, ← List.getElem?_drop, ← List.getElem?_drop, h]

/-- What a part of an operation yields, with another stream in its state. -/
def flowWithStream {α : Type} (y : List Byte) : Flow α → Flow α
  | .go a s => .go a (withStream y s)
  | .raised s => .raised (withStream y s)

/-- The rest of a part of an operation after a part that may have raised: `Flow.andThen` within an operation. -/
def Flow.bind {α β : Type} (x : Flow α) (k : α → State → Flow β) : Flow β :=
  match x with
  | .go a s => k a s
  | .raised s => .raised s

/-- `x'` is what `x` is with the stream `y`, and where the operation goes on the streams still agree. -/
structure SameFlow {α : Type} (y : List Byte) (x' x : Flow α) : Prop where
  eq : x' = flowWithStream y x
  agrees : ∀ a t, x = .go a t → AgreesFrom y t

theorem SameFlow.go {α : Type} {y : List Byte} {s : State} (h : AgreesFrom y s) (a : α) : SameFlow y (.go a (withStream y s)) (.go a s) :=
  ⟨rfl, fun _ _ hgo => by cases hgo; exact h⟩

theorem SameFlow.bind {α β : Type} {y : List Byte} {x' x : Flow α} {k' k : α → State → Flow β} (h : SameFlow y x' x)
    (hk : ∀ a t, AgreesFrom y t → SameFlow y (k' a (withStream y t)) (k a t)) : SameFlow y (x'.bind k') (x.bind k) := by
  rw [h.eq]
  cases x with
  | go a t => exact hk a t (h.agrees a t rfl)
  | raised t => exact ⟨rfl, fun _ _ hgo => by cases hgo⟩

theorem SameFlow.andThen {α : Type} {y : List Byte} {x' x : Flow α} {k' k : α → State → Result} (h : SameFlow y x' x)
    (hk : ∀ a t, AgreesFrom y t → k' a (withStream y t) = resultWithStream y (k a t)) :
    x'.andThen k' = resultWithStream y (x.andThen k) := by
  rw [h.eq]
  cases x with
  | go a t => exact hk a t (h.agrees a t rfl)
  | raised t => rfl

/-! ### The parts that fetch -/

theorem fetchToken_eq_bind (s : State) : fetchToken s =
    (fetch .truncatedRleStream s).bind fun _ s1 => (fetch .truncatedRleStream s1).bind fun _ s2 => .go s.cur s2 := by
  rw [fetchToken]
  cases fetch .truncatedRleStream s with
  | raised s1 => rfl
  | go b s1 => dsimp only [Flow.bind]; cases fetch .truncatedRleStream s1 <;> rfl

theorem literals8_succ (n : Nat) (s : State) :
    literals8 (n + 1) s = (fetch .truncatedRleStream s).bind fun b s1 => literals8 n (emit b s1) := by
  rw [literals8]
  cases fetch .truncatedRleStream s <;> rfl

theorem literals4_succ (n i : Nat) (B : Byte) (s : State) : literals4 (n + 1) i B s =
    if i % 2 = 0 then (fetch .truncatedRleStream s).bind fun b s1 => literals4 n (i + 1) b (emit (field 4 0 b) s1)
    else literals4 n (i + 1) B (emit (field 4 1 B) s) := by
  rw [literals4]
  cases fetch .truncatedRleStream s <;> rfl

theorem padByte_eq_bind (nb : Nat) (s : State) : padByte nb s =
    if nb % 2 = 1 then (fetch .truncatedRleStream s).bind fun _ s1 => .go () s1 else .go () s := by
  rw [padByte]
  cases fetch .truncatedRleStream s <;> rfl

section
variable {y : List Byte} {s : State} (h : AgreesFrom y s)
include h

/-- Fetch reads the byte at CUR and moves CUR on (R53). -/
theorem fetch_sameFlow (k : ErrKind) : SameFlow y (fetch k (withStream y s)) (fetch k s) := by
  have hbyte : y[s.cur]? = s.stream[s.cur]? := h s.cur (Nat.le_refl _)
  cases hb : s.stream[s.cur]? with
  | some b =>
    rw [fetch_go k (s := withStream y s) (hbyte.trans hb), fetch_go k hb]
    exact .go (s := { s with cur := s.cur + 1 }) (fun a ha => h a (Nat.le_of_succ_le ha)) b
  | none =>
    rw [fetch_end k (List.getElem?_eq_none_iff.mp hb), fetch_end k (s := withStream y s) (List.getElem?_eq_none_iff.mp (hbyte.trans hb))]
    exact ⟨rfl, fun _ _ hgo => by cases hgo⟩

theorem fetchToken_sameFlow : SameFlow y (fetchToken (withStream y s)) (fetchToken s) := by
  rw [fetchToken_eq_bind, fetchToken_eq_bind]
  exact (fetch_sameFlow h _).bind fun _ _ h1 => (fetch_sameFlow h1 _).bind fun _ _ h2 => .go h2 _

theorem padByte_sameFlow (nb : Nat) : SameFlow y (padByte nb (withStream y s)) (padByte nb s) := by
  rw [padByte_eq_bind, padByte_eq_bind]
  split
  · exact (fetch_sameFlow h _).bind fun _ _ h1 => .go h1 _
  · exact .go h _

end

theorem literals8_sameFlow {y : List Byte} (n : Nat) {s : State} (h : AgreesFrom y s) :
    SameFlow y (literals8 n (withStream y s)) (literals8 n s) := by
  induction n generalizing s with
  | zero => exact .go h _
  | succ n ih =>
    rw [literals8_succ, literals8_succ]
    exact (fetch_sameFlow h _).bind fun b t ht => ih (s := emit b t) ht

theorem literals4_sameFlow {y : List Byte} (n i : Nat) (B : Byte) {s : State} (h : AgreesFrom y s) :
    SameFlow y (literals4 n i B (withStream y s)) (literals4 n i B s) := by
  induction n generalizing i B s with
  | zero => exact .go h _
  | succ n ih =>
    rw [literals4_succ, literals4_succ]
    split
    · exact (fetch_sameFlow h _).bind fun b t ht => ih (i + 1) b (s := emit (field 4 0 b) t) ht
    · exact ih (i + 1) B (s := emit (field 4 1 B) s) h

/-! ### The parts that do not see the stream -/

section
variable (y : List Byte)

theorem unpackFields_withStream (b : Nat) (B : Byte) (n j : Nat) (s : State) :
    unpackFields b B n j (withStream y s) = withStream y (unpackFields b B n j s) := by
  induction n generalizing j s with
  | zero => rfl
  | succ n ih =>
    rw [unpackFields, unpackFields, ← ih]
    exact congrArg _ (apply_ite (withStream y) (s.len < s.width) (emit (field b j B) s) s).symm

theorem emitRun_withStream (f : Nat → Byte) (n i : Nat) (s : State) : emitRun f n i (withStream y s) = withStream y (emitRun f n i s) := by
  induction n generalizing i s with
  | zero => rfl
  | succ n ih => exact ih (i + 1) (emit (f i) s)

theorem fillRows_withStream (n : Nat) (s : State) : fillRows n (withStream y s) = withStream y (fillRows n s) := by
  induction n generalizing s with
  | zero => rfl
  | succ n ih => exact ih (commitRow (fillRow s))

theorem endBitmap_withStream (s : State) : endBitmap (withStream y s) = withStream y (endBitmap s) := by
  change { fillRows (s.height.toNat - s.row.toNat) (withStream y s) with phase := .done } = _
  rw [fillRows_withStream]
  rfl

theorem endRun_withStream (t0 : Nat) (s : State) : endRun t0 (withStream y s) = resultWithStream y (endRun t0 s) := by
  change (if rowOverrun s then Host.Outcome.next (raise .corruptRowLength t0 (withStream y s)) else .next (withStream y s)) = _
  rw [endRun]
  split <;> rfl

/-- A commit stops by the same test with either stream (log 18). -/
theorem commit_withStream {op : State → State} (s : State) (hop : op (withStream y s) = withStream y (op s)) :
    (if rowInGrid (withStream y s) then .next (op (withStream y s)) else .fault .rowOutsideGrid : Result) =
      resultWithStream y (if rowInGrid s then .next (op s) else .fault .rowOutsideGrid) := by
  rw [hop, show rowInGrid (withStream y s) = rowInGrid s from rfl]
  split <;> rfl

end

/-- Every operation of the decoder reads from CUR on only. -/
theorem exec_withStream {y : List Byte} {i : Instr} {s : State} (hi : i.format ≠ .c) (h : AgreesFrom y s) :
    exec i (withStream y s) = resultWithStream y (exec i s) := by
  have hunpack (b : Nat) (B : Byte) : unpack b B (withStream y s) = resultWithStream y (unpack b B s) :=
    (fetch_sameFlow h .truncatedPixelData).andThen fun _ t _ => congrArg Host.Outcome.next (unpackFields_withStream y b B (8 / b) 0 t)
  have hencoded (f : Nat → Byte) (n : Nat) (t0 : Nat) (t : State) :
      endRun t0 (emitRun f n 0 (withStream y t)) = resultWithStream y (endRun t0 (emitRun f n 0 t)) := by
    rw [emitRun_withStream, endRun_withStream]
  cases i
  case start | clear => exact absurd rfl hi
  case finish => rfl
  case rowend => exact commit_withStream (op := commitRow) y s rfl
  case unpack1 B => exact hunpack 1 B
  case unpack2 B => exact hunpack 2 B
  case unpack4 B => exact hunpack 4 B
  case unpack8 B => exact hunpack 8 B
  case padset =>
    cases hm : modeOf s.mode with
    | none => simp only [exec, execPadset, withStream, hm, resultWithStream]
    | some m => rw [exec_padset hm, exec_padset (s := withStream y s) hm]; rfl
  case padskip B => exact (fetch_sameFlow h .truncatedPixelData).andThen fun _ _ _ => rfl
  case eol => exact (fetchToken_sameFlow h).andThen fun _ t _ => commit_withStream (op := fun u => commitRow (fillRow u)) y t rfl
  case eob => exact (fetchToken_sameFlow h).andThen fun _ t _ => commit_withStream (op := endBitmap) y t (endBitmap_withStream y t)
  case delta => exact (fetchToken_sameFlow h).andThen fun _ _ _ => rfl
  case abs4 n =>
    exact (fetchToken_sameFlow h).andThen fun t0 _ h1 => (literals4_sameFlow n.toNat 0 0 h1).andThen fun _ _ h2 =>
      (padByte_sameFlow h2 ((n.toNat + 1) / 2)).andThen fun _ u _ => endRun_withStream y t0 u
  case abs8 n =>
    exact (fetchToken_sameFlow h).andThen fun t0 _ h1 => (literals8_sameFlow n.toNat h1).andThen fun _ _ h2 =>
      (padByte_sameFlow h2 n.toNat).andThen fun _ u _ => endRun_withStream y t0 u
  case enc4 n p q => exact (fetchToken_sameFlow h).andThen fun t0 t _ => hencoded (alternate p q) n.toNat t0 t
  case enc8 n v => exact (fetchToken_sameFlow h).andThen fun t0 t _ => hencoded (fun _ => v) n.toNat t0 t

/-- The selection does not see the stream (R72). -/
theorem select_withStream (y : List Byte) (s : State) : select (withStream y s) = select s := rfl

theorem decoderOperation_withStream {y : List Byte} {s : State} (h : y.drop s.cur = s.stream.drop s.cur) :
    decoderOperation (withStream y s) = resultWithStream y (decoderOperation s) := by
  cases hsel : select s with
  | none => simp only [decoderOperation, select_withStream, hsel, resultWithStream]
  | some c =>
    have hc (v : BitVec 2) : c ≠ .command v := fun heq => select_ne_command v (heq ▸ hsel)
    have hsel' : select (withStream y s) = some c := hsel
    have hbytes : (withStream y s).stream.drop (withStream y s).cur = s.stream.drop s.cur := h
    obtain ⟨i, rest, hd⟩ | ⟨k, hd⟩ := decode_ok_or_missing hc (s.stream.drop s.cur)
    · rw [decoderOperation_decoded hsel hd, decoderOperation_decoded hsel' (hbytes ▸ hd)]
      exact exec_withStream (format_ne_c_of_decode hc hd) (agreesFrom_of_drop h)
    · rw [decoderOperation_missing hsel hd, decoderOperation_missing hsel' (hbytes ▸ hd)]
      rfl

/-- Settles O47: the step is one operation, selected without the stream and decoded from CUR on. -/
theorem bytesBelowCurAreNotRead : Obligations.BytesBelowCurAreNotRead := by
  unfold Obligations.BytesBelowCurAreNotRead
  intro s y hquiet hs _ h
  rw [step_of_quiet hquiet, decoderTurn_run hs, step_of_quiet (s := withStream y s) ⟨hquiet.ctrl, hquiet.inbox⟩,
    decoderTurn_run (s := withStream y s) hs]
  exact decoderOperation_withStream h

end Sys2Proof.Machine

/-! ## A whole packed row (R104, R110, R111, R93)

The four parts of a stored row one after another: a run of unpack operations, whose pixels add up; PADSET on the full row; the fillers, counted off one by
one; and the commit, which moves what the first part left in ROWBUF. -/

namespace Sys2Proof.Machine

/-! ### Runs and frames -/

theorem run_one {s t : State} (h : step s = .next t) : Sys2Proof.core.run 1 s = .next t :=
  run_step h

theorem run_trans {k j : Nat} {s t u : State} (h : Sys2Proof.core.run k s = .next t) (h' : Sys2Proof.core.run j t = .next u) :
    Sys2Proof.core.run (k + j) s = .next u :=
  (run_add h).trans h'

/-- A row goes on in its mode while the configuration, PHASE and ROW are kept. -/
theorem Running.of_keeps {m : Mode} {s t : State} (h : Running m s) (hconfig : KeepsConfig s t) (hphase : t.phase = s.phase)
    (hrow : t.row = s.row) : Running m t where
  quiet := hconfig.quiet h.quiet
  phase := hphase.trans h.phase
  row := by rw [hrow, hconfig.height]; exact h.row
  mode := by rw [hconfig.mode]; exact h.mode

theorem PixelsAdded.refl (pixel : Nat → Option Byte) (s : State) : PixelsAdded 0 0 pixel s s where
  cur := rfl
  count := rfl
  cells c := by rw [if_neg (by omega)]
  grid _ := rfl
  place := ⟨rfl, rfl, rfl⟩
  status := ⟨rfl, rfl, rfl⟩
  config := KeepsConfig.refl s

/-- Pixels added twice are the pixels of both, the second after the first. -/
theorem PixelsAdded.trans {n n' k k' : Nat} {p p' q : Nat → Option Byte} {s t u : State} (h : PixelsAdded n k p s t)
    (h' : PixelsAdded n' k' p' t u) (hq : ∀ i, i < n → p i = q i) (hq' : ∀ i, i < n' → p' i = q (n + i)) :
    PixelsAdded (n + n') (k + k') q s u where
  cur := by rw [h'.cur, h.cur, Nat.add_assoc]
  count := by rw [h'.count, h.count, Nat.add_assoc]
  cells c := by
    rw [h'.cells c, h.cells c, h.count]
    by_cases hsecond : s.len.toNat + n ≤ c ∧ c < s.len.toNat + n + n'
    · rw [if_pos hsecond, if_pos (by omega), hq' _ (by omega)]
      congr 1
      omega
    · rw [if_neg hsecond]
      by_cases hfirst : s.len.toNat ≤ c ∧ c < s.len.toNat + n
      · rw [if_pos hfirst, if_pos (by omega), hq _ (by omega)]
      · rw [if_neg hfirst, if_neg (by omega)]
  grid a := (h'.grid a).trans (h.grid a)
  place := ⟨h'.place.row.trans h.place.row, h'.place.sub.trans h.place.sub, h'.place.padcnt.trans h.place.padcnt⟩
  status := ⟨h'.status.phase.trans h.status.phase, h'.status.errKind.trans h.status.errKind, h'.status.errOffset.trans h.status.errOffset⟩
  config := h.config.trans h'.config

/-- A row committed is one committed from any earlier state with the same ROW, GRID and configuration. -/
theorem RowCommitted.of_same {cell cell' : Nat → Option Byte} {s t u : State} (h : RowCommitted cell t u) (hrow : t.row = s.row)
    (hgrid : SameCells s.grid t.grid) (hconfig : KeepsConfig s t) (hcells : ∀ c, c < s.width.toNat → cell' c = cell c) :
    RowCommitted cell' s u := by
  have hcommitted := h.cells
  have hothers := h.others
  rw [hrow, hconfig.height, hconfig.width] at hcommitted hothers
  exact {
    row := hrow ▸ h.row
    cells := fun c v hc hv => hcommitted c v hc (hcells c hc ▸ hv)
    others := fun a ha => (hothers a ha).trans (hgrid a)
    begun := h.begun
    config := hconfig.trans h.config }

/-! ### The pixel bytes -/

/-- Pixel `c` of the row whose first byte is at CUR (R104). -/
def rowPixel (b : Nat) (s : State) (c : Nat) : Option Byte :=
  (s.stream[s.cur + c * b / 8]?).map (packedPixel b (c % (8 / b)))

/-- Before the last byte of a row the row is open, and one more byte brings as many of its pixels as there is room for. -/
theorem unpacked_count {b k width : Nat} (hb : b = 1 ∨ b = 2 ∨ b = 4 ∨ b = 8) (hk : k < (width * b + 7) / 8) :
    k * (8 / b) < width ∧
      min (k * (8 / b)) width + min (8 / b) (width - min (k * (8 / b)) width) = min ((k + 1) * (8 / b)) width := by
  obtain rfl | rfl | rfl | rfl := hb <;> omega

/-- Pixel number `k * (8 / b) + j` is field `j` of byte `k`. -/
theorem rowPixel_field {b : Nat} (hb : b = 1 ∨ b = 2 ∨ b = 4 ∨ b = 8) (s : State) (k : Nat) {j : Nat} (hj : j < 8 / b) {B : Byte}
    (hB : s.stream[s.cur + k]? = some B) : rowPixel b s (k * (8 / b) + j) = some (packedPixel b j B) := by
  have hbyte : (k * (8 / b) + j) * b / 8 = k := by obtain rfl | rfl | rfl | rfl := hb <;> omega
  have hfield : (k * (8 / b) + j) % (8 / b) = j := by rw [Nat.mul_comm, Nat.mul_add_mod, Nat.mod_eq_of_lt hj]
  rw [rowPixel, hbyte, hfield, hB, Option.map_some]

/-- `k` bytes of a row unpacked, from its beginning (R104). -/
theorem run_unpack_bytes {m : Mode} {s : State} (hrun : Running m s) (hm : isPacked m = true) (hsub : s.sub = .pixels) (hlen : s.len = 0)
    (hbytes : s.cur + rowBytes (bitsPerPixel m) s.width ≤ s.stream.length) {k : Nat} (hk : k ≤ rowBytes (bitsPerPixel m) s.width) :
    ∃ t : State, Sys2Proof.core.run k s = .next t ∧
      PixelsAdded (min (k * (8 / bitsPerPixel m)) s.width.toNat) k (rowPixel (bitsPerPixel m) s) s t := by
  induction k with
  | zero => exact ⟨s, rfl, by rw [Nat.zero_mul, Nat.zero_min]; exact .refl _ s⟩
  | succ k ih =>
    obtain ⟨t, hsteps, hadded⟩ := ih (Nat.le_of_succ_le hk)
    obtain ⟨hroom, hcount⟩ := unpacked_count (bitsPerPixel_of_packed hm) hk
    have hcount0 := hadded.count
    rw [hlen] at hcount0
    have hlen' : t.len.toNat = min (k * (8 / bitsPerPixel m)) s.width.toNat := by simpa using hcount0
    have hopen : t.len < t.width := by
      rw [BitVec.lt_def, hlen', hadded.config.width]
      omega
    have hlt : s.cur + k < s.stream.length := by omega
    have hB : t.stream[t.cur]? = some s.stream[s.cur + k] := by
      rw [hadded.config.stream, hadded.cur]
      exact List.getElem?_eq_getElem hlt
    have hrun' := hrun.of_keeps hadded.config hadded.status.phase hadded.place.row
    have hstep := step_of_open_packed hrun' hm (hadded.place.sub.trans hsub) hopen hB
    obtain ⟨u, hu, hadded'⟩ := unpack_of_lt (bitsPerPixel m) s.stream[s.cur + k] (s := t) (by rw [hadded.config.stream, hadded.cur]; exact hlt)
    refine ⟨u, run_trans hsteps (run_one (hstep.trans hu)), ?_⟩
    rw [← hcount]
    rw [roomLeft, hlen', hadded.config.width] at hadded'
    refine hadded.trans hadded' (fun _ _ => rfl) fun i hi => ?_
    rw [Nat.min_eq_left (Nat.le_of_lt hroom)]
    exact (rowPixel_field (bitsPerPixel_of_packed hm) s k (by omega) (List.getElem?_eq_getElem hlt)).symm

/-! ### The fillers -/

/-- The fillers of a row skipped one by one (R111). -/
theorem run_skip_fillers {m : Mode} {n : Nat} {s : State} (hrun : Running m s) (hm : isPacked m = true) (hsub : s.sub = .pad)
    (hpad : s.padcnt.toNat = n) (hbytes : s.cur + n ≤ s.stream.length) :
    Sys2Proof.core.run n s = .next { s with cur := s.cur + n, padcnt := 0 } := by
  induction n generalizing s with
  | zero =>
    have hzero : s.padcnt = 0 := BitVec.eq_of_toNat_eq hpad
    rw [← hzero]
    rfl
  | succ n ih =>
    have hne : s.padcnt ≠ 0 := fun hzero => by simp [hzero] at hpad
    have hlt : s.cur < s.stream.length := by omega
    let s1 : State := { s with cur := s.cur + 1, padcnt := s.padcnt - 1 }
    have hstep : step s = .next s1 :=
      (padskipSkipsOneFiller.1 m s _ hrun hm hsub hne (List.getElem?_eq_getElem hlt)).trans (exec_padskip_of_lt _ hlt)
    have hcount : s1.padcnt.toNat = n := (toNat_padcnt_pred hne).trans (by rw [hpad, Nat.add_sub_cancel])
    have hcur : s1.cur + n = s.cur + (n + 1) := by rw [Nat.add_comm n 1, ← Nat.add_assoc]
    have hrest := ih (s := s1) (hrun.of_keeps (by constructor <;> rfl) rfl rfl) hsub hcount (hcur ▸ hbytes)
    rw [hcur] at hrest
    exact (run_step hstep).trans hrest

/-! ### The row -/

/-- A full row of a packed mode: PADSET, the fillers and ROWEND (R110, R111, R94). -/
theorem run_end_of_row {m : Mode} {s : State} (hrun : Running m s) (hm : isPacked m = true) (hsub : s.sub = .pixels) (hfull : s.width ≤ s.len)
    (hbytes : s.cur + fillerCount (rowBytes (bitsPerPixel m) s.width) ≤ s.stream.length) :
    ∃ t : State, Sys2Proof.core.run (1 + fillerCount (rowBytes (bitsPerPixel m) s.width) + 1) s = .next t ∧
      RowCommitted (fun c => s.rowbuf.read c) s t ∧ t.cur = s.cur + fillerCount (rowBytes (bitsPerPixel m) s.width) ∧ KeepsStatus s t := by
  generalize hn : fillerCount (rowBytes (bitsPerPixel m) s.width) = n at hbytes ⊢
  have hcount : (BitVec.ofNat 2 n).toNat = n := by rw [← hn]; exact toNat_ofNat_fillerCount _
  let s1 : State := { s with padcnt := BitVec.ofNat 2 n, sub := .pad }
  let s2 : State := { s1 with cur := s1.cur + n, padcnt := 0 }
  have hpadset : step s = .next s1 := by
    rw [padsetCountsTheFillers.1 m s hrun hm hsub hfull, exec_padset hrun.mode, hn]
  have hrun1 : Running m s1 := hrun.of_keeps (by constructor <;> rfl) rfl rfl
  have hskips : Sys2Proof.core.run n s1 = .next s2 := run_skip_fillers hrun1 hm rfl hcount hbytes
  have hrun2 : Running m s2 := hrun.of_keeps (by constructor <;> rfl) rfl rfl
  have hrowend : step s2 = .next (commitRow s2) :=
    (step_of_rowend hrun2 (selectInRow_of_no_fillers hm rfl rfl)).trans (exec_rowend_of_row_lt hrun2.row)
  refine ⟨commitRow s2, run_trans (run_trans (run_one hpadset) hskips) (run_one hrowend), ?_, rfl, ⟨rfl, rfl, rfl⟩⟩
  exact (commitRow_rowCommitted hrun2.row).of_same rfl (fun _ => rfl) (by constructor <;> rfl) fun _ _ => rfl

/-- A stored row of a packed mode, from its beginning to the next row's. -/
theorem run_packed_row {m : Mode} {s : State} (hrun : Running m s) (hm : isPacked m = true) (hsub : s.sub = .pixels) (hlen : s.len = 0)
    (hbytes : s.cur + storedRow (bitsPerPixel m) s.width ≤ s.stream.length) :
    ∃ t : State, Sys2Proof.core.run (rowBytes (bitsPerPixel m) s.width + 1 + fillerCount (rowBytes (bitsPerPixel m) s.width) + 1) s = .next t ∧
      RowCommitted (rowPixel (bitsPerPixel m) s) s t ∧ t.cur = s.cur + storedRow (bitsPerPixel m) s.width ∧ KeepsStatus s t := by
  rw [← rowBytes_add_fillerCount] at hbytes ⊢
  obtain ⟨t, hpixels, hadded⟩ := run_unpack_bytes hrun hm hsub hlen (by omega) (Nat.le_refl _)
  have hall : min (rowBytes (bitsPerPixel m) s.width * (8 / bitsPerPixel m)) s.width.toNat = s.width.toNat := by
    rw [rowBytes]
    obtain hb | hb | hb | hb := bitsPerPixel_of_packed hm <;> rw [hb] <;> omega
  rw [hall] at hadded
  have hwidth := hadded.config.width
  have hfull : t.width ≤ t.len := by
    rw [BitVec.le_def, hadded.count, hlen, hwidth]
    exact Nat.le_add_left _ _
  obtain ⟨u, hend, hcommitted, hcur, hstatus⟩ := run_end_of_row (hrun.of_keeps hadded.config hadded.status.phase hadded.place.row) hm
    (hadded.place.sub.trans hsub) hfull (by rw [hwidth, hadded.config.stream, hadded.cur]; omega)
  rw [hwidth] at hend hcur
  refine ⟨u, (congrArg (Sys2Proof.core.run · s) (by omega)).trans (run_trans hpixels hend), ?_, by rw [hcur, hadded.cur, Nat.add_assoc],
    ⟨hstatus.phase.trans hadded.status.phase, hstatus.errKind.trans hadded.status.errKind, hstatus.errOffset.trans hadded.status.errOffset⟩⟩
  refine hcommitted.of_same hadded.place.row hadded.grid hadded.config fun c hc => ?_
  rw [hadded.cells c, hlen, if_pos (by simpa using hc)]
  simp

/-- Settles O48: each of the four depths is a packed mode's. -/
theorem packedRowIsDecodedWhole : Obligations.PackedRowIsDecodedWhole := by
  unfold Obligations.PackedRowIsDecodedWhole
  intro m b s hdepth
  obtain ⟨rfl, rfl⟩ | ⟨rfl, rfl⟩ | ⟨rfl, rfl⟩ | ⟨rfl, rfl⟩ := hdepth
  · exact fun hrun hsub hlen hbytes => run_packed_row (m := .depth1) hrun rfl hsub hlen hbytes
  · exact fun hrun hsub hlen hbytes => run_packed_row (m := .depth2) hrun rfl hsub hlen hbytes
  · exact fun hrun hsub hlen hbytes => run_packed_row (m := .depth4) hrun rfl hsub hlen hbytes
  · exact fun hrun hsub hlen hbytes => run_packed_row (m := .depth8) hrun rfl hsub hlen hbytes

end Sys2Proof.Machine

/-! ## Commands, moves and reads of the host (R23, R41, R96, R180, R186, R201)

What a step is where a command stands at CTRL or a move of the host is next, and what each read gives. -/

namespace Sys2Proof.Machine

/-- Settles O5: a turn of the decoder is the operation it decodes. -/
theorem stepRunsDecodedInstruction : Obligations.StepRunsDecodedInstruction := by
  unfold Obligations.StepRunsDecodedInstruction
  intro s c i rest hquiet hs hsel hd
  rw [step_of_quiet hquiet, decoderTurn_run hs, decoderOperation_decoded hsel hd]

/-! ### Commands -/

/-- A value at CTRL is taken before anything else (log 8). -/
theorem step_of_ctrl {s : State} {v : BitVec 2} (h : s.ctrl = some v) : step s = takeCommand v { s with ctrl := none } := by
  simp only [step, turn, h]

/-- Settles O6: the command by what its value decodes to (R77). -/
theorem commandAtCtrlIsTaken : Obligations.CommandAtCtrlIsTaken := by
  unfold Obligations.CommandAtCtrlIsTaken
  refine fun s => ⟨fun h => step_of_ctrl h, fun h => step_of_ctrl h, ?_⟩
  rintro (h | h) <;> exact step_of_ctrl h

/-- Settles O10: each command tests its phase first, and START the written bits next. -/
theorem commandsOutsideTheirPhase : Obligations.CommandsOutsideTheirPhase := by
  unfold Obligations.CommandsOutsideTheirPhase
  refine fun s => ⟨fun hs => ?_, fun hs hw => ?_, fun hs => ?_⟩
  · exact if_neg hs
  · simp only [exec, execStart, hs, hw, if_true, Bool.false_eq_true, if_false]
  · refine if_neg fun hend => ?_
    obtain h | h := hs <;> simp [h] at hend

/-- Settles O11: CLEAR in its phases is one update of the state. -/
theorem clearReturnsToIdle : Obligations.ClearReturnsToIdle := by
  unfold Obligations.ClearReturnsToIdle
  exact fun s hs => ⟨_, if_pos hs, rfl, rfl, rfl, fun _ => rfl, fun _ => rfl, by constructor <;> rfl⟩

/-- A commit stops where GRID has no row for it (log 18). -/
theorem rowInGrid_eq_false {s : State} (h : s.height ≤ s.row) : rowInGrid s = false :=
  decide_eq_false (Reg32.not_lt.mpr h)

/-- Settles O14: the selection and PADSET find no engine, and the three commits no row. -/
theorem stopsByName : Obligations.StopsByName := by
  unfold Obligations.StopsByName
  refine ⟨fun s hquiet hs hrow hmode => ?_, fun s hmode => ?_, fun s hrow => ?_, fun s hrow hcur => ?_⟩
  · have hsel : select s = none := by simp [select, imageComplete, hrow, modeOf_eq_none.mpr hmode]
    simp only [step_of_quiet hquiet, decoderTurn_run hs, decoderOperation, hsel]
  · simp only [exec, execPadset, modeOf_eq_none.mpr hmode]
  · simp only [exec, execRowend, rowInGrid_eq_false hrow, Bool.false_eq_true, if_false]
  · have hno : rowInGrid { s with cur := s.cur + 2 } = false := rowInGrid_eq_false hrow
    constructor
    · simp only [exec, execEol, fetchToken_go hcur, Flow.andThen, hno, Bool.false_eq_true, if_false]
    · simp only [exec, execEob, fetchToken_go hcur, Flow.andThen, hno, Bool.false_eq_true, if_false]

/-! ### Moves -/

/-- With nothing at CTRL the host's next move is made (log 8). -/
theorem step_of_move {s : State} {m : HostMove} {rest : List HostMove} (hctrl : s.ctrl = none) (hbox : s.inbox = m :: rest) :
    step s = hostTurn m rest s := by
  simp only [step, turn, hctrl, hbox]

/-- Settles O31: each write is the move's own update, in phase IDLE only. -/
theorem hostWritesOnlyInIdle : Obligations.HostWritesOnlyInIdle := by
  unfold Obligations.HostWritesOnlyInIdle
  intro s rest hctrl
  have hwrite {m : HostMove} {t : State} (hturn : hostTurn m rest s = .next (whenIdle { s with inbox := rest } t)) (hbox : s.inbox = m :: rest) :
      step s = .next (if s.phase = .idle then t else { s with inbox := rest }) :=
    (step_of_move hctrl hbox).trans hturn
  exact ⟨fun _ hbox => hwrite rfl hbox, fun _ hbox => hwrite rfl hbox, fun _ hbox => hwrite rfl hbox, fun _ hbox => hwrite rfl hbox⟩

/-- Settles O49: each move is one case of the host's turn. -/
theorem hostAttachesCommandsAndWaits : Obligations.HostAttachesCommandsAndWaits := by
  unfold Obligations.HostAttachesCommandsAndWaits
  intro s rest hctrl
  refine ⟨fun bytes hbox hs => ?_, fun bytes hbox hs => ?_, fun v hbox => step_of_move hctrl hbox, fun hbox => step_of_move hctrl hbox,
    fun hbox => ?_⟩
  · exact (step_of_move hctrl hbox).trans (if_neg hs)
  · exact (step_of_move hctrl hbox).trans (if_pos hs)
  · refine (step_of_move hctrl hbox).trans ?_
    change (if s.phase = .run then decoderTurn s else .next { s with inbox := rest, answer := some (phaseCode s.phase) }) = _
    cases s.phase <;> rfl

/-- Settles O30: reset is IDLE with the written bits off, from any phase. -/
theorem resetLeavesIdleAndNoValues : Obligations.ResetLeavesIdleAndNoValues := by
  unfold Obligations.ResetLeavesIdleAndNoValues
  rintro t (rfl | ⟨s, rest, hctrl, hbox, hstep⟩)
  · exact ⟨rfl, rfl, rfl, fun _ => rfl, fun _ => rfl, rfl, rfl, rfl, rfl, rfl, hostRead_gridCell_of_ne_done (by decide)⟩
  · rw [step_of_move hctrl hbox] at hstep
    cases hstep
    exact ⟨rfl, rfl, rfl, fun _ => rfl, fun _ => rfl, rfl, rfl, rfl, rfl, rfl, hostRead_gridCell_of_ne_done (by simp [resetBlock, State.reset])⟩

/-! ### Reads -/

/-- Settles O33: the table of codes, kind by kind. -/
theorem errorCodesAreThoseOfTheTable : Obligations.ErrorCodesAreThoseOfTheTable := by
  unfold Obligations.ErrorCodesAreThoseOfTheTable
  intro s
  cases h : s.errKind <;> simp only [hostRead, errCode, h]

/-- A cell of GRID is read in phase DONE, within HEIGHT by WIDTH (R55, R56). -/
theorem hostRead_gridCell_of_done {s : State} (hs : s.phase = .done) {r c : Nat} (hr : r < s.height.toNat) (hc : c < s.width.toNat) {v : Byte}
    (hv : s.grid.read (r * s.width.toNat + c) = some v) : hostRead (.gridCell r c) s = some v.toNat := by
  simp only [hostRead, hs, hr, hc, hv, and_self, if_true, Option.map_some]

theorem hostRead_gridCell_of_outside {s : State} {r c : Nat} (h : s.height.toNat ≤ r ∨ s.width.toNat ≤ c) : hostRead (.gridCell r c) s = none :=
  if_neg fun ⟨_, hr, hc⟩ => by omega

/-- Settles O32: each read by its line of R201; the step that makes it puts it into `answer`. -/
theorem hostReadsFollowTheTable : Obligations.HostReadsFollowTheTable := by
  unfold Obligations.HostReadsFollowTheTable
  intro s
  refine ⟨?_, errorCodesAreThoseOfTheTable s, rfl, rfl, rfl, rfl, rfl, rfl, hostRead_gridCell_of_ne_done,
    fun hs _ _ hr hc _ hv => hostRead_gridCell_of_done hs hr hc hv, fun _ _ h => hostRead_gridCell_of_outside h,
    fun _ _ hctrl hbox => step_of_move hctrl hbox⟩
  cases h : s.phase <;> simp only [hostRead, phaseCode, h]

/-- Settles O34: an unsupported depth and an unsupported compression are tested before any pair; the pairs themselves are finitely many. -/
theorem hostDispatchFollowsTheTable : Obligations.HostDispatchFollowsTheTable := by
  unfold Obligations.HostDispatchFollowsTheTable
  refine ⟨fun depth compression hdepth => ?_, fun depth compression hdepth hcompression => ?_, ?_⟩
  · refine if_pos fun h => hdepth ?_
    simpa using h
  · have hknown : ¬ ¬ (depth = 1 ∨ depth = 2 ∨ depth = 4 ∨ depth = 8 ∨ depth = 16 ∨ depth = 24 ∨ depth = 32) :=
      not_not.mpr (by simpa using hdepth)
    have hover : 2 < compression := by
      simp only [List.mem_cons, List.not_mem_nil, or_false] at hcompression
      omega
    exact (if_neg hknown).trans (if_pos hover)
  · decide

end Sys2Proof.Machine
